-- ==== Sys2Proof/Word.lean ====
section
/-! DEFINITION. The words of the machine: bytes, 24-bit command words, 7-bit addresses, the two bus lines. -/

namespace Sys2Proof

/-- A byte, bits numbered 7 (most significant) to 0 (R7). -/
abbrev Byte := BitVec 8

/-- A command word (R48). -/
abbrev CmdWord := BitVec 24

/-- A device address (R29). -/
abbrev Addr7 := BitVec 7

/-- The two lines of the bus (R8): the clock `scl` and the data line `sda`. -/
inductive Line where
  | scl
  | sda
deriving DecidableEq, Repr

end Sys2Proof
end

