-- ==== Sys2Proof/Config.lean ====
section
/-! DEFINITION. What the spec leaves to an implementation (R6), the micro-operations the environment sees (R9), and the
free values: opaque constants with no body, so that nothing can be proved of their values. -/

namespace Sys2Proof

/-- The micro-operations, as a trace records them (R9): `Rc`/`Rd` are `release`, `Lc`/`Ld` are `pullLow`, `Sc=v`/`Sd=v` are
`sample`. The settle delay is part of every `release` and `pullLow` (R60). There is no event that drives a line high (R64). -/
inductive MicroOp where
  | release (l : Line)
  | pullLow (l : Line)
  | sample (l : Line) (v : Bool)
deriving DecidableEq, Repr

/-- The constraints of R6: the three command codes are pairwise distinct (92 D6) and the settle delay is above 0. -/
def paramsValid (cmdConfig cmdStartConv cmdReadTemp : Byte) (tSettle : Nat) : Bool :=
  cmdConfig != cmdStartConv && cmdConfig != cmdReadTemp && cmdStartConv != cmdReadTemp && decide (0 < tSettle)

/-- The implementation parameters (R6), and the ones that integration fixes: the host address `REG_BASE` of register 0 (R17,
92 D1) and the platform pins of the two lines (R16; log 19). The values written here only show that the constraints can be
met (Lean asks for one value before it accepts an opaque constant of this type); no definition of the model uses them.
`tSettle` is counted in a unit of time that the spec leaves open. -/
structure Params where
  addr7 : Addr7 := 0#7
  cmdConfig : Byte := 0#8
  cmdStartConv : Byte := 1#8
  cmdReadTemp : Byte := 2#8
  oneShotPayload : Byte := 0#8
  tSettle : Nat := 1
  regBase : Nat := 0
  sclPin : Nat := 0
  sdaPin : Nat := 0
  valid : paramsValid cmdConfig cmdStartConv cmdReadTemp tSettle = true := by decide
deriving DecidableEq, Repr, Inhabited

/-- The parameter values of the machine after reset: fixed, and open (R6, 93 U18; log 1). -/
opaque Config.params : Params

/-- The environment oracle of R32: the level that a `Sample` of a line returns, after the micro-operations performed since
reset, in the life of the machine that begins with the given reset (log 2). -/
opaque Config.env : Nat → List MicroOp → Line → Bool

/-- Whether a byte transfer that has come to this point goes no further (R104, 93 U1; log 3). -/
opaque Config.hangs : Nat → List MicroOp → Bool

/-- The level of an input pin that a host read of `LINES` sees; the last number counts those reads (R21; log 12). -/
opaque Config.pin : Nat → List MicroOp → Nat → Line → Bool

/-- Position of the done-flag in the status byte (R6: the one parameter that has a value). -/
def doneBit : Nat := 7

/-- How the environment answers samples, as plain data. `unknown` is the oracle of R32. The other two write an environment
out: `script` lists the answers to the first samples since reset (the oracle script of 95_test_vectors.md) and leaves the
later ones to the oracle; `wired pulls` is a healthy bus (R33) with one device on it, which pulls SDA low exactly while the
number of micro-operations since the last start condition is in the list, and never SCL; `wired []` is a bus that only the
block drives (log 2). -/
inductive LevelPlan where
  | unknown
  | script (answers : List Bool)
  | wired (pulls : List Nat)
deriving DecidableEq, Repr

/-- Whether byte transfers hang, as plain data: `unknown` leaves it open (R104); `never` is the premise `ENV-NOHANG`
(R33); `after n` hangs every byte transfer once `n` micro-operations have been performed since reset (log 3). -/
inductive HangPlan where
  | unknown
  | never
  | after (n : Nat)
deriving DecidableEq, Repr

/-- The environment (R32): everything on the bus that is not the block. No step changes it. -/
structure Environment where
  levels : LevelPlan
  hang : HangPlan
deriving DecidableEq, Repr

end Sys2Proof
end

