-- ==== Sys2Proof/Syntax.lean ====
section
/-! DEFINITION. The command set: one constructor per row of the opcode table (R51, R57). -/

namespace Sys2Proof

/-- The commands of the block (R51) and the four pseudo-commands (R57). -/
inductive Instr where
  /-- `REL l` (R61). -/
  | rel (l : Line)
  /-- `LOW l` (R62). -/
  | low (l : Line)
  /-- `SMP l` (R63). -/
  | smp (l : Line)
  /-- `START` (R67). -/
  | start
  /-- `STOP` (R68). -/
  | stop
  /-- `SENDB byte` (R69). -/
  | sendb (byte : Byte)
  /-- `RECVB` (R70). -/
  | recvb
  /-- `MACK` (R71). -/
  | mack
  /-- `MNACK` (R72). -/
  | mnack
  /-- `WRCMD code, payload` (R78). -/
  | wrcmd (code payload : Byte)
  /-- `RDREG code, n` (R82); `n` is 1 or 2 (`Instr.wellFormed`). -/
  | rdreg (code : Byte) (n : Nat)
  /-- `CFG1SHOT` (R85), a pseudo-command. -/
  | cfg1shot
  /-- `STARTCONV` (R86), a pseudo-command. -/
  | startconv
  /-- `RDSTAT` (R87), a pseudo-command. -/
  | rdstat
  /-- `RDTEMP` (R88), a pseudo-command. -/
  | rdtemp
deriving DecidableEq, Repr

/-- The eleven commands of R51: the instructions that are no pseudo-command. -/
def Instr.isCore : Instr → Bool
  | .rel _ => true
  | .low _ => true
  | .smp _ => true
  | .start => true
  | .stop => true
  | .sendb _ => true
  | .recvb => true
  | .mack => true
  | .mnack => true
  | .wrcmd _ _ => true
  | .rdreg _ _ => true
  | .cfg1shot => false
  | .startconv => false
  | .rdstat => false
  | .rdtemp => false

end Sys2Proof
end

