-- ==== Sys2Proof/WellFormed.lean ====
section
/-! DEFINITION. Which instructions the encoding admits. -/

namespace Sys2Proof

/-- An instruction is well-formed when its operands can be encoded. The one operand whose Lean type is wider than its field
is the byte count of `RDREG`: "the encoding cannot express another count" than 1 and 2 (R52). -/
def Instr.wellFormed : Instr → Bool
  | .rel _ => true
  | .low _ => true
  | .smp _ => true
  | .start => true
  | .stop => true
  | .sendb _ => true
  | .recvb => true
  | .mack => true
  | .mnack => true
  | .wrcmd _ _ => true
  | .rdreg _ n => n == 1 || n == 2
  | .cfg1shot => true
  | .startconv => true
  | .rdstat => true
  | .rdtemp => true

end Sys2Proof
end

