-- ==== Sys2Proof/Decode.lean ====
section
/-! DEFINITION. The command decoder, total on 24-bit words, and the encoder (30_encoding.md). -/

namespace Sys2Proof

/-- Why a word is illegal (R53). Either way the command completes with result `ILLEGAL`. -/
inductive DecodeReject where
  /-- Bits 23:16 are none of the eleven opcodes. -/
  | unassignedOpcode
  /-- A must-be-zero bit of the opcode's format is 1. -/
  | reservedBitSet
deriving DecidableEq, Repr

/-- Field `op`, bits 23:16 (R48). -/
def fieldOp (w : CmdWord) : Byte := w.extractLsb' 16 8
/-- Field `a`, bits 15:8: the first operand (R48). -/
def fieldA (w : CmdWord) : Byte := w.extractLsb' 8 8
/-- Field `b`, bits 7:0: the second operand (R48). -/
def fieldB (w : CmdWord) : Byte := w.extractLsb' 0 8

/-- The line of format L: `l = word[8]`, SCL if 0, else SDA (R52). -/
def lineOfBit (l : Bool) : Line := if l then .sda else .scl

/-- The byte count of format R: `byteCount = zext(word[0]) + 1` (R52). -/
def byteCountOfBit (w : Bool) : Nat := w.toNat + 1

/-- Format L (R49): `a[7:1]` and `b` must be zero. -/
def decodeL (w : CmdWord) (mk : Line → Instr) : Except DecodeReject Instr :=
  if (fieldA w).extractLsb' 1 7 = 0#7 ∧ fieldB w = 0#8 then .ok (mk (lineOfBit ((fieldA w).getLsbD 0)))
  else .error .reservedBitSet

/-- Format N (R49): `a` and `b` must be zero. -/
def decodeN (w : CmdWord) (i : Instr) : Except DecodeReject Instr :=
  if fieldA w = 0#8 ∧ fieldB w = 0#8 then .ok i else .error .reservedBitSet

/-- Format B (R49): `b` must be zero. -/
def decodeB (w : CmdWord) (mk : Byte → Instr) : Except DecodeReject Instr :=
  if fieldB w = 0#8 then .ok (mk (fieldA w)) else .error .reservedBitSet

/-- Format W (R49): every operand bit carries meaning. -/
def decodeW (w : CmdWord) (mk : Byte → Byte → Instr) : Except DecodeReject Instr :=
  .ok (mk (fieldA w) (fieldB w))

/-- Format R (R49): `b[7:1]` must be zero. -/
def decodeR (w : CmdWord) (mk : Byte → Nat → Instr) : Except DecodeReject Instr :=
  if (fieldB w).extractLsb' 1 7 = 0#7 then .ok (mk (fieldA w) (byteCountOfBit ((fieldB w).getLsbD 0)))
  else .error .reservedBitSet

/-- Decoding (R58): look the opcode up in R51, check the must-be-zero bits of its format, extract the operands. The words of
the pseudo-commands are words of `WRCMD` and `RDREG` and decode to those (R57). -/
def decode (w : CmdWord) : Except DecodeReject Instr :=
  if fieldOp w = 0x01#8 then decodeL w .rel
  else if fieldOp w = 0x02#8 then decodeL w .low
  else if fieldOp w = 0x03#8 then decodeL w .smp
  else if fieldOp w = 0x10#8 then decodeN w .start
  else if fieldOp w = 0x11#8 then decodeN w .stop
  else if fieldOp w = 0x12#8 then decodeB w .sendb
  else if fieldOp w = 0x13#8 then decodeN w .recvb
  else if fieldOp w = 0x14#8 then decodeN w .mack
  else if fieldOp w = 0x15#8 then decodeN w .mnack
  else if fieldOp w = 0x20#8 then decodeW w .wrcmd
  else if fieldOp w = 0x21#8 then decodeR w .rdreg
  else .error .unassignedOpcode

/-- The decoder as the host numbers an instruction's bits: `w` has `nbits` bits, every bit above them is 0. -/
def decodeTableWord (nbits w : Nat) : Option Instr :=
  if w % 2 ^ nbits < 2 ^ 24 then (decode (BitVec.ofNat 24 (w % 2 ^ nbits))).toOption else none

/-- A word put together from its three fields (R48). -/
def wordOf (op a b : Byte) : CmdWord := op ++ a ++ b

/-- The line bit of format L (R50). -/
def bitOfLine : Line → Bool
  | .scl => false
  | .sda => true

/-- A field whose bits 7:1 are 0 and whose bit 0 is given: `a` of format L, `b` of format R (R49). -/
def bitByte (v : Bool) : Byte := 0#7 ++ BitVec.ofBool v

/-- The core command a pseudo-command stands for (R57); every other command stands for itself. -/
def Instr.expand (p : Params) : Instr → Instr
  | .cfg1shot => .wrcmd p.cmdConfig p.oneShotPayload
  | .startconv => .wrcmd p.cmdStartConv 0#8
  | .rdstat => .rdreg p.cmdConfig 1
  | .rdtemp => .rdreg p.cmdReadTemp 2
  | .rel l => .rel l
  | .low l => .low l
  | .smp l => .smp l
  | .start => .start
  | .stop => .stop
  | .sendb byte => .sendb byte
  | .recvb => .recvb
  | .mack => .mack
  | .mnack => .mnack
  | .wrcmd code payload => .wrcmd code payload
  | .rdreg code n => .rdreg code n

/-- The word of an instruction (R49, R51, R57). The `payload` field is kept where it is ignored (R58 allows both). An
ill-formed count of `RDREG` has no word; it is given the word of count 2 here, and no statement uses that. -/
def encode (p : Params) : Instr → CmdWord
  | .rel l => wordOf 0x01#8 (bitByte (bitOfLine l)) 0#8
  | .low l => wordOf 0x02#8 (bitByte (bitOfLine l)) 0#8
  | .smp l => wordOf 0x03#8 (bitByte (bitOfLine l)) 0#8
  | .start => wordOf 0x10#8 0#8 0#8
  | .stop => wordOf 0x11#8 0#8 0#8
  | .sendb byte => wordOf 0x12#8 byte 0#8
  | .recvb => wordOf 0x13#8 0#8 0#8
  | .mack => wordOf 0x14#8 0#8 0#8
  | .mnack => wordOf 0x15#8 0#8 0#8
  | .wrcmd code payload => wordOf 0x20#8 code payload
  | .rdreg code n => wordOf 0x21#8 code (bitByte (n != 1))
  | .cfg1shot => wordOf 0x20#8 p.cmdConfig p.oneShotPayload
  | .startconv => wordOf 0x20#8 p.cmdStartConv 0#8
  | .rdstat => wordOf 0x21#8 p.cmdConfig (bitByte false)
  | .rdtemp => wordOf 0x21#8 p.cmdReadTemp (bitByte true)

/-- The rows of the opcode map as match and mask (R51): a word `w` selects a row when `w &&& mask = match`. -/
def opcodeRows : List (CmdWord × CmdWord) :=
  [(0x010000#24, 0xFFFEFF#24), (0x020000#24, 0xFFFEFF#24), (0x030000#24, 0xFFFEFF#24),
   (0x100000#24, 0xFFFFFF#24), (0x110000#24, 0xFFFFFF#24), (0x120000#24, 0xFF00FF#24),
   (0x130000#24, 0xFFFFFF#24), (0x140000#24, 0xFFFFFF#24), (0x150000#24, 0xFFFFFF#24),
   (0x200000#24, 0xFF0000#24), (0x210000#24, 0xFF00FE#24)]

/-- Whether a word selects a row (R51). -/
def selectsRow (w : CmdWord) (row : CmdWord × CmdWord) : Bool := w &&& row.2 == row.1

end Sys2Proof
end

