-- ==== Sys2Proof/Machine/State.lean ====
section
/-! DEFINITION. The state of the machine as plain data, the reasons a step can stop, and the state after reset. -/

namespace Sys2Proof.Machine

/-- The result codes (R91). `STATUS.ERR` holds one; codes 5 to 7 never occur, so the type does not contain them (93 U16). -/
inductive Result where
  | ok
  | busBusy
  | addrNack
  | noAck
  | illegal
deriving DecidableEq, Repr

/-- The four host-visible registers, numbered 0 to 3 in this order (R17). There are no others. -/
inductive HostReg where
  | cmd
  | status
  | rdata
  | lines
deriving DecidableEq, Repr

/-- What the host can do (R13, R17, R105), and letting time pass. -/
inductive HostAction where
  /-- Write a command word to `CMD` and wait until `BUSY` is 0: the source's blocking call (log 11). -/
  | call (w : CmdWord)
  /-- Write a register, without waiting; a value is cut to the register's width by the port (R17, R20). -/
  | write (r : HostReg) (w : CmdWord)
  /-- Read a register (R17, R21, R28). -/
  | read (r : HostReg)
  /-- Let the command in flight perform its next micro-operation (92 D20). -/
  | tick
  /-- Assert the reset input (R105, R106). -/
  | assertReset
  /-- Release the reset input (R105). -/
  | releaseReset
deriving DecidableEq, Repr

/-- The state. The first eight fields are the tuple of R14; the next two are what the spec takes as parameters and no step
changes (R6, R32); the rest is the model's own (INVENTORY.md). -/
structure State where
  /-- `OE[SCL]`: the block drives the clock low (R15). -/
  oeScl : Bool
  /-- `OE[SDA]`: the block drives the data line low (R15). -/
  oeSda : Bool
  /-- `STATUS.BUSY` (R18). -/
  busy : Bool
  /-- `STATUS.ERR` (R18, R91). -/
  err : Result
  /-- `STATUS.SBIT` (R18). -/
  sbit : Bool
  /-- `RDATA`: a byte or the spec's "no value" (R14, R19, R28). -/
  rdata : Option Byte
  /-- `IFC`, the in-flight command (R22). -/
  ifc : Option Instr
  /-- `UPC`, the index of the next micro-operation; no meaning while `ifc` is none (R23, log 5). -/
  upc : Nat
  /-- The implementation parameters (R6, log 1). -/
  params : Params
  /-- The environment (R32, log 2, log 3). -/
  bus : Environment
  /-- The micro-operations performed since reset, oldest first: the concatenated traces (R9, R32, log 4). -/
  history : List MicroOp
  /-- How often reset was asserted (log 4). -/
  resets : Nat
  /-- The level of the reset input: while it is true "the state is the reset state" (R105, log 24). -/
  resetAsserted : Bool
  /-- How often `LINES` was read (log 12). -/
  pinReads : Nat
  /-- The host's pending actions, the next one first (R126, log 10). -/
  host : List HostAction
  /-- What the last register read gave the host (log 13). -/
  hostData : Option Byte
deriving DecidableEq, Repr

/-- Why the machine stops with a fault. -/
inductive Fault where
  /-- A host read of `RDATA` while it holds no value (R28, 93 U8); raised by the host action `read rdata`. Safe: the model
  stops where the spec gives no value. -/
  | rdataHasNoValue
  /-- The in-flight command's program does not fit the trace that `upc` says it has performed; raised by `tick` in states that
  no run reaches (log 15). Safe: the model stops. -/
  | inFlightTraceMismatch
deriving DecidableEq, Repr

/-- Why the model gives an action no meaning. -/
inductive Refusal where
  /-- An instruction that has no meaning yet; raised by the dispatcher only. Safe: the model stops. -/
  | notModelled (mnemonic : String)
  /-- A command while `BUSY` is 1: "a host error it gives no meaning to" (R20, R96, 93 U9); raised by every command and by a
  write of `CMD`. Safe: the model stops where the spec drops the word. -/
  | commandWhileBusy
  /-- A host read of the write-only `CMD`: "a model must refuse it" (R17, 93 U11). Safe: the model stops. -/
  | readOfCmd
  /-- `RDREG` with a byte count that no word encodes (R52, log 18). Safe: no decoded word comes here. -/
  | readCountNotEncodable
deriving DecidableEq, Repr

/-- The reset state (R26, R105): both lines released, `STATUS` 0x00, `RDATA` without a value, no command in flight. The
arguments are what reset does not touch (log 1, log 2, log 4, log 10, log 13) and the level of the reset input. -/
def State.resetOf (params : Params) (bus : Environment) (resets : Nat) (resetAsserted : Bool) (pinReads : Nat)
    (host : List HostAction) (hostData : Option Byte) : State where
  oeScl := false
  oeSda := false
  busy := false
  err := .ok
  sbit := false
  rdata := none
  ifc := none
  upc := 0
  params := params
  bus := bus
  history := []
  resets := resets
  resetAsserted := resetAsserted
  pinReads := pinReads
  host := host
  hostData := hostData

/-- The machine right after reset: open parameters, an unknown environment, nothing asked of it yet, the reset input
released (R105: it "waits for the first write to `CMD`"). -/
def State.reset : State :=
  State.resetOf Config.params ⟨.unknown, .unknown⟩ 0 false 0 [] none

end Sys2Proof.Machine
end

