-- ==== Sys2Proof/Machine/Environment.lean ====
section
/-! DEFINITION. What the environment answers: the levels of the lines (R32), the input pins (R16, R21) and whether a byte
transfer hangs (R104). -/

namespace Sys2Proof.Machine

/-- The drive state of line `l` after a trace, from the state `d` before it (R61, R62): the last `Release` or `PullLow` of
that line decides. -/
def drivenFrom (d : Bool) (tr : List MicroOp) (l : Line) : Bool :=
  tr.foldl (fun d m => match m with
    | .release l' => if l' = l then false else d
    | .pullLow l' => if l' = l then true else d
    | .sample _ _ => d) d

/-- Whether the block drives line `l` low after the micro-operations `h`, performed from the released lines of reset (R26). -/
def drivenAfter (h : List MicroOp) (l : Line) : Bool := drivenFrom false h l

/-- How many samples a trace holds. -/
def sampleCount (h : List MicroOp) : Nat :=
  h.countP fun m => match m with
    | .sample _ _ => true
    | .release _ => false
    | .pullLow _ => false

/-- What a device counts by: the drive states of the two lines and the micro-operations since the last start condition. -/
structure StartCount where
  scl : Bool
  sda : Bool
  count : Nat
deriving DecidableEq, Repr

/-- One micro-operation, as that device sees it: a `PullLow` of SDA with both lines released begins a transaction. -/
def StartCount.next (c : StartCount) : MicroOp → StartCount
  | .release .scl => ⟨false, c.sda, c.count + 1⟩
  | .release .sda => ⟨c.scl, false, c.count + 1⟩
  | .pullLow .scl => ⟨true, c.sda, c.count + 1⟩
  | .pullLow .sda => if c.scl || c.sda then ⟨c.scl, true, c.count + 1⟩ else ⟨c.scl, true, 0⟩
  | .sample _ _ => ⟨c.scl, c.sda, c.count + 1⟩

/-- The device of the plan `wired`: which lines it pulls low after the history `h` (log 2). -/
def deviceLow (pulls : List Nat) (h : List MicroOp) : Line → Bool
  | .scl => false
  | .sda => decide ((h.foldl StartCount.next ⟨false, false, 0⟩).count ∈ pulls)

end Sys2Proof.Machine

namespace Sys2Proof

/-- The bit a `Sample` of line `l` returns after the history `h` (R32: `Env(h, l)`). -/
def Environment.level (e : Environment) (resets : Nat) (h : List MicroOp) (l : Line) : Bool :=
  match e.levels with
  | .unknown => Config.env resets h l
  | .script answers => (answers[Machine.sampleCount h]?).getD (Config.env resets h l)
  | .wired pulls => !Machine.drivenAfter h l && !Machine.deviceLow pulls h l

/-- Whether a byte transfer that has come to this point hangs there (R104). -/
def Environment.hangsAt (e : Environment) (resets : Nat) (h : List MicroOp) : Bool :=
  match e.hang with
  | .unknown => Config.hangs resets h
  | .never => false
  | .after n => decide (n ≤ h.length)

/-- The level of an input pin as a read of `LINES` sees it: a draw of its own, not a function of the drive state (R21), but on
a bus that is written out as `wired`, where it is the line's level (log 12). -/
def Environment.pin (e : Environment) (resets : Nat) (h : List MicroOp) (pinReads : Nat) (l : Line) : Bool :=
  match e.levels with
  | .unknown => Config.pin resets h pinReads l
  | .script _ => Config.pin resets h pinReads l
  | .wired pulls => !Machine.drivenAfter h l && !Machine.deviceLow pulls h l

end Sys2Proof

namespace Sys2Proof.Machine

/-- The drive state `OE[l]` (R8). -/
def State.oe (s : State) : Line → Bool
  | .scl => s.oeScl
  | .sda => s.oeSda

/-- The level the environment would answer a sample of `l` now (R32). -/
def State.level (s : State) (l : Line) : Bool := s.bus.level s.resets s.history l

/-- Whether a byte transfer would hang now (R104). -/
def State.hangsHere (s : State) : Bool := s.bus.hangsAt s.resets s.history

/-- The level of the input pin `scl_in` or `sda_in` now (R16). -/
def State.pin (s : State) (l : Line) : Bool := s.bus.pin s.resets s.history s.pinReads l

/-- The output pins `scl_oe` and `sda_oe`, equal to the drive states at every instant (R16). -/
def State.oePin (s : State) (l : Line) : Bool := s.oe l

/-- The byte `LINES` (R21): bits 7:4 read 0, bit 3 `sda_in`, bit 2 `scl_in`, bit 1 `OE[SDA]`, bit 0 `OE[SCL]`. -/
def State.linesView (s : State) : Byte :=
  0#4 ++ BitVec.ofBool (s.pin .sda) ++ BitVec.ofBool (s.pin .scl) ++ BitVec.ofBool s.oeSda ++ BitVec.ofBool s.oeScl

end Sys2Proof.Machine
end

