-- ==== Sys2Proof/Machine/Flags.lean ====
section
/-! DEFINITION. The result codes as numbers and the `STATUS` register as the host reads it (R18, R91). -/

namespace Sys2Proof.Machine

/-- The number of a result code (R91). -/
def Result.code : Result → BitVec 3
  | .ok => 0#3
  | .busBusy => 1#3
  | .addrNack => 2#3
  | .noAck => 3#3
  | .illegal => 4#3

/-- The aggregated result of the source's callers: success or failure (R81). -/
def Result.isOk (r : Result) : Bool := r == .ok

/-- The byte `STATUS` (R18): bits 7:5 read 0, bit 4 `SBIT`, bits 3:1 `ERR`, bit 0 `BUSY`. -/
def State.status (s : State) : Byte :=
  0#3 ++ BitVec.ofBool s.sbit ++ s.err.code ++ BitVec.ofBool s.busy

/-- The `ready` of the signal-level view of the command port: not `BUSY` (R20). -/
def State.ready (s : State) : Bool := !s.busy

/-- The result of `Start()` from its sample of the clock (R67, R92): 1 means the bus is busy. -/
def startResult (v : Bool) : Result := if v then .busBusy else .ok

/-- The result of `SendByte()` from its sample of the acknowledgment (R69, R93): 1 means not acknowledged. -/
def ackResult (v : Bool) : Result := if v then .noAck else .ok

end Sys2Proof.Machine
end

