-- ==== Sys2Proof/Machine/Operands.lean ====
section
/-! DEFINITION. How operands become bits on the wire and back (R35, R36, R37, R125). The fields of a word are taken apart in
Decode.lean (R52). -/

namespace Sys2Proof.Machine

/-- The bits of a byte in the order they go over the wire: most significant first (R35). -/
def bitsMsbFirst (b : Byte) : List Bool :=
  [b.getLsbD 7, b.getLsbD 6, b.getLsbD 5, b.getLsbD 4, b.getLsbD 3, b.getLsbD 2, b.getLsbD 1, b.getLsbD 0]

/-- The accumulate step of a received byte: `acc <- {acc[6:0], bit}` (R35, R125). -/
def shiftIn (acc : Byte) (bit : Bool) : Byte := acc.extractLsb' 0 7 ++ BitVec.ofBool bit

/-- The byte that a list of sampled bits spells, the first one ending in bit 7 when there are eight (R70). -/
def byteOfBits (bits : List Bool) : Byte := bits.foldl shiftIn 0#8

/-- The address byte `{ADDR7, rw}` (R37). -/
def addrByte (a : Addr7) (rw : Bool) : Byte := a ++ BitVec.ofBool rw

/-- `ADDR_W`: the address byte of a write, `rw = 0` (R37). -/
def addrW (p : Params) : Byte := addrByte p.addr7 false

/-- `ADDR_R`: the address byte of a read, `rw = 1` (R37). -/
def addrR (p : Params) : Byte := addrByte p.addr7 true

/-- Whether `WRCMD` sends its payload: if and only if `code = CMD_CONFIG` (R80). -/
def sendsPayload (p : Params) (code : Byte) : Bool := code == p.cmdConfig

/-- The done-flag of a status byte (R6, R87). -/
def doneFlag (b : Byte) : Bool := b.getLsbD doneBit

/-- The host's reading of the temperature byte: a signed byte, two's complement (R36; general knowledge, 93 G3). -/
def degrees (b : Byte) : Int := b.toInt

end Sys2Proof.Machine
end

