-- ==== Sys2Proof/Machine/Ops.lean ====
section
/-! DEFINITION. The operations every command is made of: the effect of each micro-operation on the state, micro-programs and
how they run, issuing and completing a command, and the procedures of the bus transaction engine, which the rules expand in
place (R126). -/

namespace Sys2Proof.Machine

/-! ## The micro-operations on the state (R61, R62, R63) -/

/-- Write one line's drive state (R15). -/
def State.setOe (s : State) (l : Line) (low : Bool) : State :=
  match l with
  | .scl => { s with oeScl := low }
  | .sda => { s with oeSda := low }

/-- Record a performed micro-operation in the trace and advance `UPC` by exactly 1 (R9, R23). -/
def State.record (s : State) (m : MicroOp) : State :=
  { s with history := s.history ++ [m], upc := s.upc + 1 }

/-- `Release(l)` (R61). `Delay()` changes no state (R60). -/
def State.release (s : State) (l : Line) : State := (s.setOe l false).record (.release l)

/-- `PullLow(l)` (R62). -/
def State.pullLow (s : State) (l : Line) : State := (s.setOe l true).record (.pullLow l)

/-- `Sample(l)` returning `v` (R63): `STATUS.SBIT <- v`, and no drive state changes. -/
def State.sampled (s : State) (l : Line) (v : Bool) : State := { s with sbit := v }.record (.sample l v)

/-! ## Issue and completion (R20) -/

/-- A command is accepted: `IFC` latched, `UPC <- 0`, `BUSY <- 1`, `ERR <- 0`, atomically (R20). -/
def State.issue (s : State) (i : Instr) : State :=
  { s with ifc := some i, upc := 0, busy := true, err := .ok }

/-- The command in flight completes with result `r` (R20); `d` is a byte for `RDATA`, where the command writes one (R19). -/
def State.complete (s : State) (r : Result) (d : Option Byte) : State :=
  { s with err := r, busy := false, ifc := none, rdata := d.or s.rdata }

/-! ## Micro-programs -/

/-- Whether a micro-operation lies inside a byte transfer, where the command may hang before it (R104), or outside (log 3). -/
inductive Phase where
  | framing
  | byteTransfer
deriving DecidableEq, Repr

/-- What a command does to the bus: micro-operations in order, each sample deciding what follows (R126), and at the end the
command's result and the byte it writes to `RDATA`, if any. -/
inductive Prog where
  | release (ph : Phase) (l : Line) (next : Prog)
  | pullLow (ph : Phase) (l : Line) (next : Prog)
  | sample (ph : Phase) (l : Line) (next : Bool → Prog)
  | finish (r : Result) (d : Option Byte)

/-- Whether the command stops for ever before its next micro-operation (R104). -/
def State.stallsIn (s : State) : Phase → Bool
  | .framing => false
  | .byteTransfer => s.hangsHere

/-- Run a micro-program to its end, or up to the point where it hangs: then the command stays in flight, with the drive
states that the performed prefix left (R104). -/
def Prog.run : Prog → State → State
  | .release ph l next, s => if s.stallsIn ph then s else next.run (s.release l)
  | .pullLow ph l next, s => if s.stallsIn ph then s else next.run (s.pullLow l)
  | .sample ph l next, s => if s.stallsIn ph then s else (next (s.level l)).run (s.sampled l (s.level l))
  | .finish r d, s => s.complete r d

/-- What is left of a micro-program after a trace; none if the program does not perform that trace. -/
def Prog.after : Prog → List MicroOp → Option Prog
  | p, [] => some p
  | .release _ l next, m :: rest => if m = .release l then next.after rest else none
  | .pullLow _ l next, m :: rest => if m = .pullLow l then next.after rest else none
  | .sample _ l next, m :: rest =>
    match m with
    | .sample l' v => if l' = l then (next v).after rest else none
    | .release _ => none
    | .pullLow _ => none
  | .finish _ _, _ :: _ => none

/-- A command completes together with its last micro-operation: writing the result takes no time (R121). -/
def Prog.settle : Prog → State → State
  | .finish r d, s => s.complete r d
  | .release _ _ _, s => s
  | .pullLow _ _ _, s => s
  | .sample _ _ _, s => s

/-- Perform the first micro-operation of a micro-program, unless it hangs there. -/
def Prog.stepOne : Prog → State → State
  | .release ph l next, s => if s.stallsIn ph then s else next.settle (s.release l)
  | .pullLow ph l next, s => if s.stallsIn ph then s else next.settle (s.pullLow l)
  | .sample ph l next, s => if s.stallsIn ph then s else (next (s.level l)).settle (s.sampled l (s.level l))
  | .finish r d, s => s.complete r d

/-- A command written to `CMD` by a host that waits for it: refused while `BUSY` is 1, else issued and run (R20). -/
def runCommand (i : Instr) (p : Prog) (s : State) : Host.Outcome State Fault Refusal :=
  if s.busy then .refused .commandWhileBusy else .next (p.run (s.issue i))

/-- An illegal word (R53): it completes at once with `ILLEGAL`; no micro-operation, no other change (log 9). While `BUSY` is
1 it is refused before decode like any other word (R96). -/
def illegalCommand (s : State) : Host.Outcome State Fault Refusal :=
  if s.busy then .refused .commandWhileBusy else .next { s with err := .illegal, upc := 0 }

/-! ## The procedures of the bus transaction engine

A procedure takes what follows it as its last argument. -/

/-- `ClockPulse()`: release, then pull low (R66). -/
def clockPulse (ph : Phase) (next : Prog) : Prog :=
  .release ph .scl (.pullLow ph .scl next)

/-- `ClockPulseSample()`: the same pulse, reading SDA while the clock is released (R66). -/
def clockPulseSample (ph : Phase) (next : Bool → Prog) : Prog :=
  .release ph .scl (.sample ph .sda fun v => .pullLow ph .scl (next v))

/-- `Start()` (R67). -/
def startProc (next : Result → Prog) : Prog :=
  .release .framing .scl <| .release .framing .sda <| .pullLow .framing .sda <| .pullLow .framing .scl <|
  .sample .framing .scl fun v => next (startResult v)

/-- `Stop()` (R68). -/
def stopProc (next : Prog) : Prog :=
  .pullLow .framing .sda <| .release .framing .scl <| .release .framing .sda next

/-- Drive SDA to a bit's value: released for 1, pulled low for 0 (R69). -/
def driveBit (bit : Bool) (next : Prog) : Prog :=
  if bit then .release .byteTransfer .sda next else .pullLow .byteTransfer .sda next

/-- The data bits of `SendByte`, each driven and then clocked (R69). -/
def sendBits : List Bool → Prog → Prog
  | [], next => next
  | bit :: bits, next => driveBit bit (clockPulse .byteTransfer (sendBits bits next))

/-- `SendByte(b)` (R69): the eight bits, then SDA released and sampled in the ninth pulse. -/
def sendByteProc (b : Byte) (next : Result → Prog) : Prog :=
  sendBits (bitsMsbFirst b) <| .release .byteTransfer .sda <|
  clockPulseSample .byteTransfer fun ack => next (ackResult ack)

/-- The loop of `ReceiveByte` with `n` bits to go (R70). -/
def receiveBits : Nat → Byte → (Byte → Prog) → Prog
  | 0, acc, next => next acc
  | n + 1, acc, next => clockPulseSample .byteTransfer fun bit => receiveBits n (shiftIn acc bit) next

/-- `ReceiveByte()` (R70). -/
def receiveByteProc (next : Byte → Prog) : Prog :=
  .release .byteTransfer .sda <| receiveBits 8 0#8 next

/-- `MasterAck()` (R71). The phase is the caller's: by itself it is no byte transfer (R104 does not list `MACK`); after a byte
received in `RDREG` it is that byte's ninth clock pulse (R46, R70) and so counted as inside the byte transfer (log 3). -/
def masterAckProc (ph : Phase) (next : Prog) : Prog :=
  .pullLow ph .sda <| clockPulse ph next

/-- `MasterNack()` (R72), with the phase as in `masterAckProc` (log 3). -/
def masterNackProc (ph : Phase) (next : Prog) : Prog :=
  .release ph .sda <| clockPulse ph next

/-! ## Failure: the block's only trap entry (R95) -/

/-- `raise E`: the command ends with result `E` and performs no further micro-operation (R10). -/
def raise (e : Result) : Prog := .finish e none

/-- `Abort(E)`: `Stop()`, then `raise E` (R95). Nothing is saved and there is no return from it (R97). -/
def abort (e : Result) : Prog := stopProc (raise e)

/-- Go on if a step's result is `OK`, else abort the transaction with the cause `e` (R79, R83). -/
def orAbort (r e : Result) (next : Prog) : Prog := if r = .ok then next else abort e

/-- Go on if a step's result is `OK`, else end the command with that result and no clean-up (R74). -/
def orRaise (r : Result) (next : Prog) : Prog := if r = .ok then next else raise r

/-- The command's pseudocode ends without `raise`: result `OK` (R10). -/
def finishOk : Prog := .finish .ok none

end Sys2Proof.Machine
end

