-- ==== Sys2Proof/Machine/Engine.lean ====
section
/-! DEFINITION. The bus transaction engine's commands: `START`, `STOP`, `SENDB`, `RECVB`, `MACK`, `MNACK`
(41_transaction_engine.md). -/

namespace Sys2Proof.Machine

/-- `START` (R67). -/
def progStart : Prog := startProc fun r => orRaise r finishOk

/-- `STOP` (R68). -/
def progStop : Prog := stopProc finishOk

/-- `SENDB byte` (R69). -/
def progSendb (byte : Byte) : Prog := sendByteProc byte fun r => orRaise r finishOk

/-- `RECVB` (R70): `RDATA <- ReceiveByte()`. -/
def progRecvb : Prog := receiveByteProc fun v => .finish .ok (some v)

/-- `MACK` (R71). -/
def progMack : Prog := masterAckProc .framing finishOk

/-- `MNACK` (R72). -/
def progMnack : Prog := masterNackProc .framing finishOk

/-- `START`: a start condition or a repeated start (R67). -/
def execStart (s : State) : Host.Outcome State Fault Refusal := runCommand .start progStart s

/-- `STOP`: a stop condition (R68). -/
def execStop (s : State) : Host.Outcome State Fault Refusal := runCommand .stop progStop s

/-- `SENDB byte`: transmit one byte and sample the acknowledgment (R69). -/
def execSendb (byte : Byte) (s : State) : Host.Outcome State Fault Refusal :=
  runCommand (.sendb byte) (progSendb byte) s

/-- `RECVB`: receive one byte (R70). -/
def execRecvb (s : State) : Host.Outcome State Fault Refusal := runCommand .recvb progRecvb s

/-- `MACK`: master acknowledge (R71). -/
def execMack (s : State) : Host.Outcome State Fault Refusal := runCommand .mack progMack s

/-- `MNACK`: master not-acknowledge (R72). -/
def execMnack (s : State) : Host.Outcome State Fault Refusal := runCommand .mnack progMnack s

end Sys2Proof.Machine
end

