-- ==== Sys2Proof/Machine/LineDriver.lean ====
section
/-! DEFINITION. The bus line driver's commands: `REL`, `LOW`, `SMP` (40_line_driver.md). -/

namespace Sys2Proof.Machine

/-- `REL l` (R61). -/
def progRel (l : Line) : Prog := .release .framing l finishOk

/-- `LOW l` (R62). -/
def progLow (l : Line) : Prog := .pullLow .framing l finishOk

/-- `SMP l` (R63): the bit is returned in `STATUS.SBIT`. -/
def progSmp (l : Line) : Prog := .sample .framing l fun _ => finishOk

/-- `REL l`: release a line (R61). -/
def execRel (l : Line) (s : State) : Host.Outcome State Fault Refusal := runCommand (.rel l) (progRel l) s

/-- `LOW l`: pull a line low (R62). -/
def execLow (l : Line) (s : State) : Host.Outcome State Fault Refusal := runCommand (.low l) (progLow l) s

/-- `SMP l`: sample a line (R63). -/
def execSmp (l : Line) (s : State) : Host.Outcome State Fault Refusal := runCommand (.smp l) (progSmp l) s

end Sys2Proof.Machine
end

