-- ==== Sys2Proof/Machine/Sequencer.lean ====
section
/-! DEFINITION. The sensor protocol sequencer's commands: `WRCMD`, `RDREG` and the pseudo-commands `CFG1SHOT`, `STARTCONV`,
`RDSTAT`, `RDTEMP` (42_sensor_sequencer.md). -/

namespace Sys2Proof.Machine

/-- The end of `WRCMD` (R78): the payload, if and only if the code is `CMD_CONFIG` (R80), then the stop condition. -/
def writeTail (p : Params) (code payload : Byte) : Prog :=
  if sendsPayload p code then
    sendByteProc payload fun r => orAbort r .noAck <| stopProc finishOk
  else stopProc finishOk

/-- `WRCMD code, payload` (R78). -/
def progWrcmd (p : Params) (code payload : Byte) : Prog :=
  startProc fun r => orAbort r .busBusy <|
  sendByteProc (addrW p) fun r => orAbort r .addrNack <|
  sendByteProc code fun r => orAbort r .noAck <|
  writeTail p code payload

/-- The receive loop of `RDREG` (R82): `n` bytes, all but the last acknowledged; what follows gets them in order. The
acknowledgment step belongs to the byte's transfer (R46; log 3). -/
def receiveBytes : Nat → (List Byte → Prog) → Prog
  | 0, next => next []
  | n + 1, next => receiveByteProc fun v =>
    if n = 0 then masterNackProc .byteTransfer (receiveBytes n fun vs => next (v :: vs))
    else masterAckProc .byteTransfer (receiveBytes n fun vs => next (v :: vs))

/-- `RDREG code, n` (R82): only the first byte received is returned (R84). -/
def progRdreg (p : Params) (code : Byte) (n : Nat) : Prog :=
  startProc fun r => orAbort r .busBusy <|
  sendByteProc (addrW p) fun r => orAbort r .addrNack <|
  sendByteProc code fun r => orAbort r .noAck <|
  startProc fun r => orAbort r .busBusy <|
  sendByteProc (addrR p) fun r => orAbort r .addrNack <|
  receiveBytes n fun vs => stopProc (.finish .ok vs.head?)

/-- `CFG1SHOT` (R85): `WRCMD CMD_CONFIG, ONE_SHOT_PAYLOAD`. -/
def progCfg1shot (p : Params) : Prog := progWrcmd p p.cmdConfig p.oneShotPayload

/-- `STARTCONV` (R86): `WRCMD CMD_START_CONV, 0`. -/
def progStartconv (p : Params) : Prog := progWrcmd p p.cmdStartConv 0#8

/-- `RDSTAT` (R87): `RDREG CMD_CONFIG, 1`. -/
def progRdstat (p : Params) : Prog := progRdreg p p.cmdConfig 1

/-- `RDTEMP` (R88): `RDREG CMD_READ_TEMP, 2`. -/
def progRdtemp (p : Params) : Prog := progRdreg p p.cmdReadTemp 2

/-- `WRCMD code, payload`: write a command code, and for the configuration command one payload byte (R78). -/
def execWrcmd (code payload : Byte) (s : State) : Host.Outcome State Fault Refusal :=
  runCommand (.wrcmd code payload) (progWrcmd s.params code payload) s

/-- `RDREG code, n`: read one or two bytes with a repeated start (R82). A count that no word encodes is refused (R52, log 18);
the check of `BUSY` comes first, as for every word (R96). -/
def execRdreg (code : Byte) (n : Nat) (s : State) : Host.Outcome State Fault Refusal :=
  if s.busy = false ∧ (Instr.rdreg code n).wellFormed = false then .refused .readCountNotEncodable
  else runCommand (.rdreg code n) (progRdreg s.params code n) s

/-- `CFG1SHOT`: configure-one-shot (R85). The command in flight is the one its word encodes (R57). -/
def execCfg1shot (s : State) : Host.Outcome State Fault Refusal :=
  runCommand (Instr.cfg1shot.expand s.params) (progCfg1shot s.params) s

/-- `STARTCONV`: start-conversion (R86). -/
def execStartconv (s : State) : Host.Outcome State Fault Refusal :=
  runCommand (Instr.startconv.expand s.params) (progStartconv s.params) s

/-- `RDSTAT`: poll the status byte (R87). -/
def execRdstat (s : State) : Host.Outcome State Fault Refusal :=
  runCommand (Instr.rdstat.expand s.params) (progRdstat s.params) s

/-- `RDTEMP`: read the temperature (R88). -/
def execRdtemp (s : State) : Host.Outcome State Fault Refusal :=
  runCommand (Instr.rdtemp.expand s.params) (progRdtemp s.params) s

end Sys2Proof.Machine
end

