-- ==== Sys2Proof/Machine/Micro.lean ====
section
/-! DEFINITION. The command in flight taken one micro-operation at a time (R22, R23, 92 D20). -/

namespace Sys2Proof.Machine

/-- The micro-program of a command, by the command latched in `IFC` (R20, R22). -/
def program (p : Params) : Instr → Prog
  | .rel l => progRel l
  | .low l => progLow l
  | .smp l => progSmp l
  | .start => progStart
  | .stop => progStop
  | .sendb byte => progSendb byte
  | .recvb => progRecvb
  | .mack => progMack
  | .mnack => progMnack
  | .wrcmd code payload => progWrcmd p code payload
  | .rdreg code n => progRdreg p code n
  | .cfg1shot => progCfg1shot p
  | .startconv => progStartconv p
  | .rdstat => progRdstat p
  | .rdtemp => progRdtemp p

/-- The trace of the command in flight so far: `UPC` indexes "the trace so far" (R23). -/
def State.inFlightTrace (s : State) : List MicroOp := s.history.drop (s.history.length - s.upc)

/-- What is left to do of the command in flight. -/
def State.pending (s : State) (i : Instr) : Option Prog := (program s.params i).after s.inFlightTrace

/-- The command in flight performs its next micro-operation; where it hangs, or where nothing is in flight, nothing changes
(R22, R23, R104). -/
def tickCommand (s : State) : Host.Outcome State Fault Refusal :=
  match s.ifc with
  | none => .next s
  | some i =>
    match s.pending i with
    | none => .fault .inFlightTraceMismatch
    | some p => .next (p.stepOne s)

/-- `n` micro-operations of the command in flight, stopping at the first fault or refusal. -/
def tickMany : Nat → State → Host.Outcome State Fault Refusal
  | 0, s => .next s
  | n + 1, s =>
    match tickCommand s with
    | .next s' => tickMany n s'
    | .fault r => .fault r
    | .refused r => .refused r

end Sys2Proof.Machine
end

