-- ==== Sys2Proof/Machine/Dispatch.lean ====
section
/-! DEFINITION. One arm per command: each calls the command's meaning. -/

namespace Sys2Proof.Machine

def exec (i : Instr) (s : State) : Host.Outcome State Fault Refusal :=
  match i with
  -- the bus line driver
  | .rel l => Sys2Proof.Machine.execRel l s
  | .low l => Sys2Proof.Machine.execLow l s
  | .smp l => Sys2Proof.Machine.execSmp l s
  -- the bus transaction engine
  | .start => Sys2Proof.Machine.execStart s
  | .stop => Sys2Proof.Machine.execStop s
  | .sendb byte => Sys2Proof.Machine.execSendb byte s
  | .recvb => Sys2Proof.Machine.execRecvb s
  | .mack => Sys2Proof.Machine.execMack s
  | .mnack => Sys2Proof.Machine.execMnack s
  -- the sensor protocol sequencer
  | .wrcmd code payload => Sys2Proof.Machine.execWrcmd code payload s
  | .rdreg code n => Sys2Proof.Machine.execRdreg code n s
  -- the pseudo-commands
  | .cfg1shot => Sys2Proof.Machine.execCfg1shot s
  | .startconv => Sys2Proof.Machine.execStartconv s
  | .rdstat => Sys2Proof.Machine.execRdstat s
  | .rdtemp => Sys2Proof.Machine.execRdtemp s

end Sys2Proof.Machine
end

