-- ==== Sys2Proof/Machine/HostPort.lean ====
section
/-! DEFINITION. The host's side: the register port (R17, R20, R21, R28) and the reset input (R105, R106). -/

namespace Sys2Proof.Machine

/-- The number of a register (R17). -/
def HostReg.number : HostReg → Nat
  | .cmd => 0
  | .status => 1
  | .rdata => 2
  | .lines => 3

/-- The host address of a register: `REG_BASE` is that of register 0 (R17); that the others follow it by their numbers is the
model's choice (log 19). -/
def HostReg.address (p : Params) (r : HostReg) : Nat := p.regBase + r.number

/-- The register at a host address, if there is one: "these four are the block's only registers" (R17; log 19). -/
def HostReg.atAddress (p : Params) (a : Nat) : Option HostReg :=
  [HostReg.cmd, .status, .rdata, .lines].find? fun r => r.address p == a

/-- The platform pin of a line (R16; log 19). -/
def pinOf (p : Params) : Line → Nat
  | .scl => p.sclPin
  | .sda => p.sdaPin

/-- A write of `CMD` by a host that does not wait (R20): refused while `BUSY` is 1; a legal word is latched and issued; an
illegal one completes at once (R53). While reset is asserted the state stays the reset state (R105, log 24). -/
def writeCmd (w : CmdWord) (s : State) : Host.Outcome State Fault Refusal :=
  if s.resetAsserted then .next s else
  match decode w with
  | .error _ => illegalCommand s
  | .ok i => if s.busy then .refused .commandWhileBusy else .next (s.issue i)

/-- A host write (R17): "a host write to a read-only register is ignored". -/
def writeReg (r : HostReg) (w : CmdWord) (s : State) : Host.Outcome State Fault Refusal :=
  match r with
  | .cmd => writeCmd w s
  | .status => .next s
  | .rdata => .next s
  | .lines => .next s

/-- A host read (R17): whole registers, no side effects on the block (R30); a read of `LINES` performs no `Sample` (R21). -/
def readReg (r : HostReg) (s : State) : Host.Outcome State Fault Refusal :=
  match r with
  | .cmd => .refused .readOfCmd
  | .status => .next { s with hostData := some s.status }
  | .rdata =>
    match s.rdata with
    | none => .fault .rdataHasNoValue
    | some b => .next { s with hostData := some b }
  | .lines => .next { s with hostData := some s.linesView, pinReads := s.pinReads + 1 }

/-- A tick of the block: the command in flight goes on, but not while reset is asserted (R105). -/
def tickBlock (s : State) : Host.Outcome State Fault Refusal :=
  if s.resetAsserted then .next s else tickCommand s

/-- Reset is asserted (R105): the reset state, with no micro-operation; a command in flight is dropped where it stands (R106).
What is not the block's keeps its value (log 4, log 10, log 13). Asserting an asserted input is no new reset. -/
def assertReset (s : State) : State :=
  State.resetOf s.params s.bus (if s.resetAsserted then s.resets else s.resets + 1) true s.pinReads s.host s.hostData

/-- Reset is released (R105): the state stays what it is, and the block waits for the next write of `CMD`. -/
def releaseReset (s : State) : State := { s with resetAsserted := false }

end Sys2Proof.Machine
end

