-- ==== Sys2Proof/Machine/HostStep.lean ====
section
/-! DEFINITION. What each action of the host does. -/

namespace Sys2Proof.Machine

/-- Run the command a word encodes: decode, then execute; an illegal word completes with `ILLEGAL` (R53, R58). While reset is
asserted the state stays the reset state (R105, log 24). -/
def callCmd (w : CmdWord) (s : State) : Host.Outcome State Fault Refusal :=
  if s.resetAsserted then .next s else
  match decode w with
  | .error _ => illegalCommand s
  | .ok i => exec i s

/-- One action of the host. -/
def hostStep (a : HostAction) (s : State) : Host.Outcome State Fault Refusal :=
  match a with
  | .call w => callCmd w s
  | .write r w => writeReg r w s
  | .read r => readReg r s
  | .tick => tickBlock s
  | .assertReset => .next (assertReset s)
  | .releaseReset => .next (releaseReset s)

end Sys2Proof.Machine
end

