-- ==== Sys2Proof/Machine/Step.lean ====
section
/-! DEFINITION. One step: the host's next action. The block fetches nothing; its commands come from the host in the order the
host issues them (R45, R126). -/

namespace Sys2Proof.Machine

/-- One step: the host's next pending action is taken off the list and happens. With none pending the block goes on by itself:
a command in flight performs its next micro-operation, since nothing outside pauses it (R99), and with none in flight the block
waits (R105). While actions are pending the list says how they and the block's micro-operations interleave, a `tick` standing for
one of the latter (DESIGN CHOICE, log 10). -/
def step (s : State) : Host.Outcome State Fault Refusal :=
  match s.host with
  | [] => hostStep .tick s
  | a :: rest => hostStep a { s with host := rest }

/-- `s` with the reset input released and the host about to call the command of that word: the next step runs it (log 10).
The word is what `decodeTableWord` numbers: its first `nbits` bits, every bit above them 0. -/
def State.withFetchWord (s : State) (nbits w : Nat) : State :=
  { s with resetAsserted := false, host := .call (BitVec.ofNat 24 (w % 2 ^ nbits)) :: s.host }

end Sys2Proof.Machine
end

