-- ==== Sys2Proof/Machine/Assembler.lean ====
section
/-! DEFINITION. The assembler's view of a command, after its text is split into a mnemonic and operands (R56, R57). -/

namespace Sys2Proof.Machine

/-- The mnemonics (R51, R57). -/
inductive Mnemonic where
  | rel | low | smp | start | stop | sendb | recvb | mack | mnack | wrcmd | rdreg
  | cfg1shot | startconv | rdstat | rdtemp
deriving DecidableEq, Repr

/-- An operand as it is written: a line, a number, or the name of a byte-wide parameter of R6. -/
inductive AsmOperand where
  | line (l : Line)
  | number (n : Nat)
  | cmdConfig
  | cmdStartConv
  | cmdReadTemp
  | oneShotPayload
deriving DecidableEq, Repr

/-- The value of a byte operand: "a number 0 to 255 … or the name of a parameter" (R56). -/
def AsmOperand.byte? (p : Params) : AsmOperand → Option Byte
  | .line _ => none
  | .number n => if n < 256 then some (BitVec.ofNat 8 n) else none
  | .cmdConfig => some p.cmdConfig
  | .cmdStartConv => some p.cmdStartConv
  | .cmdReadTemp => some p.cmdReadTemp
  | .oneShotPayload => some p.oneShotPayload

/-- The line of a line operand. -/
def AsmOperand.line? : AsmOperand → Option Line
  | .line l => some l
  | .number _ => none
  | .cmdConfig => none
  | .cmdStartConv => none
  | .cmdReadTemp => none
  | .oneShotPayload => none

/-- The count of `RDREG`: written 1 or 2 (R56). -/
def AsmOperand.count? : AsmOperand → Option Nat
  | .number n => if n = 1 ∨ n = 2 then some n else none
  | .line _ => none
  | .cmdConfig => none
  | .cmdStartConv => none
  | .cmdReadTemp => none
  | .oneShotPayload => none

/-- Exactly one operand. -/
def oneOperand {α : Type} (f : AsmOperand → Option α) : List AsmOperand → Option α
  | [x] => f x
  | _ => none

/-- The command a line of assembler stands for (R56): `payload` may be omitted, as 0, when the code is not `CMD_CONFIG`. -/
def parseCommand (p : Params) (m : Mnemonic) (ops : List AsmOperand) : Option Instr :=
  match m with
  | .rel => (oneOperand AsmOperand.line? ops).map .rel
  | .low => (oneOperand AsmOperand.line? ops).map .low
  | .smp => (oneOperand AsmOperand.line? ops).map .smp
  | .start => if ops = [] then some .start else none
  | .stop => if ops = [] then some .stop else none
  | .sendb => (oneOperand (AsmOperand.byte? p) ops).map .sendb
  | .recvb => if ops = [] then some .recvb else none
  | .mack => if ops = [] then some .mack else none
  | .mnack => if ops = [] then some .mnack else none
  | .wrcmd =>
    match ops with
    | [c, d] => (c.byte? p).bind fun code => (d.byte? p).map fun payload => .wrcmd code payload
    | [c] => (c.byte? p).bind fun code => if code = p.cmdConfig then none else some (.wrcmd code 0#8)
    | _ => none
  | .rdreg =>
    match ops with
    | [c, n] => (c.byte? p).bind fun code => n.count?.map fun k => .rdreg code k
    | _ => none
  | .cfg1shot => if ops = [] then some .cfg1shot else none
  | .startconv => if ops = [] then some .startconv else none
  | .rdstat => if ops = [] then some .rdstat else none
  | .rdtemp => if ops = [] then some .rdtemp else none

/-- The word a line of assembler assembles to (R56, R57). -/
def assemble (p : Params) (m : Mnemonic) (ops : List AsmOperand) : Option CmdWord :=
  (parseCommand p m ops).map (encode p)

end Sys2Proof.Machine
end

