-- ==== Sys2Proof/Machine/Session.lean ====
section
/-! DEFINITION. The logical session of the sensor (R89) and the reference host procedure (R107, R108): functions over the
machine, no part of its state (R24, log 21). -/

namespace Sys2Proof.Machine

/-- The logical states of a sensor session (R89), "logical, not stored". -/
inductive Session where
  | idle
  | readyForConversion
  | converting
  | conversionDone
  | valueAvailable
deriving DecidableEq, Repr

/-- What a successful named command means to the session (R85 to R88): the poll carries the done-flag it read. -/
inductive SessionEvent where
  | configured
  | started
  | polled (done : Bool)
  | temperatureRead
deriving DecidableEq, Repr

/-- The transitions: those of R89, and that a successful start-conversion, whatever the session state, "moves the session state
to `Converting`" (R86 names no state it starts from; log 21). No other is stated: none. -/
def Session.next : Session → SessionEvent → Option Session
  | .idle, .configured => some .readyForConversion
  | _, .started => some .converting
  | .converting, .polled false => some .converting
  | .converting, .polled true => some .conversionDone
  | .conversionDone, .temperatureRead => some .valueAvailable
  | _, _ => none

/-- The session event of a command that succeeded and left the block in state `t`. A command means what its trace does: a
`WRCMD` of another code than `CMD_CONFIG` means the same with every payload, which it ignores (R80). None for a command that
is no use of a code that the spec describes (R31). -/
def sessionEvent (i : Instr) (t : State) : Option SessionEvent :=
  match i.expand t.params with
  | .wrcmd code payload =>
    if sendsPayload t.params code then
      if payload = t.params.oneShotPayload then some .configured else none
    else if code = t.params.cmdStartConv then some .started else none
  | .rdreg code n =>
    if code = t.params.cmdConfig ∧ n = 1 then some (.polled (t.rdata.any doneFlag))
    else if code = t.params.cmdReadTemp ∧ n = 2 then some .temperatureRead else none
  | .rel _ => none
  | .low _ => none
  | .smp _ => none
  | .start => none
  | .stop => none
  | .sendb _ => none
  | .recvb => none
  | .mack => none
  | .mnack => none
  | .cfg1shot => none
  | .startconv => none
  | .rdstat => none
  | .rdtemp => none

/-- The session after a command that left the block in state `t`: "a command that fails causes no transition" (R89); none
where the spec states no transition (log 21). R89 does not speak of a command that hangs, which neither succeeds nor fails
(R104), and 93 U7 leaves the sensor open after an unfinished transaction; that it causes no transition either is the model's
choice (DESIGN CHOICE, log 21). -/
def Session.after (q : Session) (i : Instr) (t : State) : Option Session :=
  if t.busy = true ∨ t.err ≠ .ok then some q else (sessionEvent i t).bind q.next

/-- Commands issued one after the other by a host that waits for each, stopping at the first fault or refusal (R126). -/
def execAll : List Instr → State → Host.Outcome State Fault Refusal
  | [], s => .next s
  | i :: rest, s =>
    match exec i s with
    | .next s' => execAll rest s'
    | .fault r => .fault r
    | .refused r => .refused r

/-- What a poll of the reference host gives: the machine afterwards, and the byte it rendered, if any (R108). -/
abbrev PollResult := State × Option Byte

/-- Go on with the state a command answers; a fault or a refusal ends the procedure. -/
def thenPoll (o : Host.Outcome State Fault Refusal) (f : State → Host.Outcome PollResult Fault Refusal) :
    Host.Outcome PollResult Fault Refusal :=
  match o with
  | .next s => f s
  | .fault r => .fault r
  | .refused r => .refused r

/-- One tick of the reference host (R108): poll the status; if the conversion is done, read the temperature, render it and
start the next conversion. A command that hangs or fails ends the tick. -/
def pollAndUpdate (s : State) : Host.Outcome PollResult Fault Refusal :=
  thenPoll (exec .rdstat s) fun s₁ =>
    if s₁.busy = true ∨ s₁.err ≠ .ok then .next (s₁, none)
    else if s₁.rdata.any doneFlag = false then .next (s₁, none)
    else thenPoll (exec .rdtemp s₁) fun s₂ =>
      if s₂.busy = true ∨ s₂.err ≠ .ok then .next (s₂, none)
      else thenPoll (exec .startconv s₂) fun s₃ => .next (s₃, s₂.rdata)

/-- What the host does after reset before it polls (R107, steps 2 and 3): configure one-shot mode, start a conversion. -/
def boot (s : State) : Host.Outcome State Fault Refusal :=
  match exec .cfg1shot s with
  | .next t => if t.busy = true ∨ t.err ≠ .ok then .next t else exec .startconv t
  | .fault r => .fault r
  | .refused r => .refused r

end Sys2Proof.Machine
end

