-- ==== Sys2Proof/Machine/Trace.lean ====
section
/-! DEFINITION. Traces by themselves: the segments the rules and the test vectors write (95_test_vectors.md), durations and
counts (R76, R121 to R123), and which trace the environment's answers select. -/

namespace Sys2Proof.Machine

/-! ## Performing a trace -/

/-- The effect of one micro-operation on the state (R61, R62, R63). -/
def State.perform (s : State) : MicroOp → State
  | .release l => s.release l
  | .pullLow l => s.pullLow l
  | .sample l v => s.sampled l v

/-- The effect of a trace on the state. -/
def State.performAll (s : State) (tr : List MicroOp) : State := tr.foldl State.perform s

/-! ## Segments -/

/-- The trace of `Start()` with clock sample `v` (R67). -/
def startTrace (v : Bool) : List MicroOp :=
  [.release .scl, .release .sda, .pullLow .sda, .pullLow .scl, .sample .scl v]

/-- The trace of `Stop()` (R68). -/
def stopTrace : List MicroOp := [.pullLow .sda, .release .scl, .release .sda]

/-- The trace of one data bit sent (R69): `Rd Rc Lc` for 1, `Ld Rc Lc` for 0. -/
def bitTrace (bit : Bool) : List MicroOp :=
  [if bit then .release .sda else .pullLow .sda, .release .scl, .pullLow .scl]

/-- The trace of `SendByte(b)` with acknowledgment sample `ack` (R69). -/
def sendTrace (b : Byte) (ack : Bool) : List MicroOp :=
  (bitsMsbFirst b).flatMap bitTrace ++ [.release .sda, .release .scl, .sample .sda ack, .pullLow .scl]

/-- The part of `SendByte`'s trace before its sample (R69). -/
def sendPrefix (b : Byte) : List MicroOp := (bitsMsbFirst b).flatMap bitTrace ++ [.release .sda, .release .scl]

/-- The trace of one bit received (R70). -/
def sampledBitTrace (bit : Bool) : List MicroOp := [.release .scl, .sample .sda bit, .pullLow .scl]

/-- The trace of `ReceiveByte()` whose samples spell `b` (R70). -/
def receiveTrace (b : Byte) : List MicroOp := .release .sda :: (bitsMsbFirst b).flatMap sampledBitTrace

/-- The trace of `MasterAck()` (R71). -/
def ackTrace : List MicroOp := [.pullLow .sda, .release .scl, .pullLow .scl]

/-- The trace of `MasterNack()` (R72). -/
def nackTrace : List MicroOp := [.release .sda, .release .scl, .pullLow .scl]

/-! ## Counts and durations -/

/-- The number of settle delays of a trace: one for every `Release` and every `PullLow` (R60, R121). -/
def delayCount (tr : List MicroOp) : Nat :=
  tr.countP fun m => match m with
    | .release _ => true
    | .pullLow _ => true
    | .sample _ _ => false

/-- The least time a trace takes (R121). -/
def duration (p : Params) (tr : List MicroOp) : Nat := delayCount tr * p.tSettle

/-- The number of clock pulses of a trace: a `Release(SCL)` and the next `PullLow(SCL)` (R66, R76), with whatever samples stand
between them. -/
def pulseCount : List MicroOp → Nat
  | [] => 0
  | .release .scl :: .pullLow .scl :: rest => pulseCount rest + 1
  | .release .scl :: .sample _ _ :: .pullLow .scl :: rest => pulseCount rest + 1
  | _ :: rest => pulseCount rest

/-! ## The environment's answers -/

/-- Whether every sample in a trace that follows the history `h` has the level the environment answers there (R32). -/
def answersAgree (e : Environment) (resets : Nat) : List MicroOp → List MicroOp → Bool
  | _, [] => true
  | h, m :: rest =>
    (match m with
     | .sample l v => e.level resets h l == v
     | .release _ => true
     | .pullLow _ => true) && answersAgree e resets (h ++ [m]) rest

/-- The environment in state `s` answers the samples of the trace as the trace says, if the trace is performed now. -/
def State.answers (s : State) (tr : List MicroOp) : Bool := answersAgree s.bus s.resets s.history tr

/-- The value of the last sample in a trace, or `v` if there is none (R18: what `SBIT` holds after it). -/
def lastSample (v : Bool) (tr : List MicroOp) : Bool :=
  tr.foldl (fun d m => match m with
    | .sample _ v' => v'
    | .release _ => d
    | .pullLow _ => d) v

end Sys2Proof.Machine
end

