-- ==== Sys2Proof/Machine/Wire.lean ====
section
/-! DEFINITION. What the other devices on the wires see of a trace: line levels and bus symbols (R33, R34). -/

namespace Sys2Proof.Machine

/-- The levels of the two lines. -/
structure Levels where
  scl : Bool
  sda : Bool
deriving DecidableEq, Repr

/-- The bus symbols (R12, R34). -/
inductive Symbol where
  | startCondition
  | stopCondition
  | dataBit (v : Bool)
deriving DecidableEq, Repr

/-- The level of a line as the wired AND of all drivers (R33, from general knowledge: 93 G2). `others h l` says whether some
other device pulls line `l` low after the history `h`. -/
def wireLevel (others : List MicroOp → Line → Bool) (h : List MicroOp) (l : Line) : Bool :=
  !drivenAfter h l && !others h l

/-- The levels of both lines. -/
def wireLevels (others : List MicroOp → Line → Bool) (h : List MicroOp) : Levels :=
  ⟨wireLevel others h .scl, wireLevel others h .sda⟩

/-- The symbol that a change of levels makes by itself (R34): a change of SDA while SCL is high is a condition, a rise of SCL transfers
the bit on SDA, and a change of SDA while SCL is low is no symbol. R34 leaves open what a change of both lines in one
micro-operation is (another device moves SDA at a clock edge). The model's choice (DESIGN CHOICE, log 17): it makes no
condition, and at a rise of SCL the bit is the level of SDA after the change. -/
def symbolOf (x y : Levels) : Option Symbol :=
  if x.scl && y.scl && x.sda && !y.sda then some .startCondition
  else if x.scl && y.scl && !x.sda && y.sda then some .stopCondition
  else if !x.scl && y.scl then some (.dataBit y.sda)
  else none

/-- Whether a start or stop condition comes next on the wires in the trace after the history `h`, before the clock falls. -/
def conditionAhead (others : List MicroOp → Line → Bool) : List MicroOp → List MicroOp → Bool
  | _, [] => false
  | h, m :: rest =>
    match symbolOf (wireLevels others h) (wireLevels others (h ++ [m])) with
    | some .startCondition => true
    | some .stopCondition => true
    | some (.dataBit _) => false
    | none => wireLevel others (h ++ [m]) .scl && conditionAhead others (h ++ [m]) rest

/-- The symbols a trace makes on the wires after the history `h` (R34, R73). A rise of SCL transfers a bit, but not where a
condition follows before SCL falls again: the rise inside `Stop()` and inside a repeated `Start()` makes "the intended symbol and
no other" (R73; "clock rises, data already high: no symbol", 95_test_vectors.md, the check on V41). At a rise whose clock pulse
the trace does not finish the bit counts, as R34 says (log 17). -/
def symbols (others : List MicroOp → Line → Bool) : List MicroOp → List MicroOp → List Symbol
  | _, [] => []
  | h, m :: rest =>
    (match symbolOf (wireLevels others h) (wireLevels others (h ++ [m])) with
     | some .startCondition => [.startCondition]
     | some .stopCondition => [.stopCondition]
     | some (.dataBit v) => if conditionAhead others (h ++ [m]) rest then [] else [.dataBit v]
     | none => []) ++ symbols others (h ++ [m]) rest

/-- The start and stop conditions among the symbols, in order. -/
def conditions (others : List MicroOp → Line → Bool) (h tr : List MicroOp) : List Symbol :=
  (symbols others h tr).filter fun x => match x with
    | .startCondition => true
    | .stopCondition => true
    | .dataBit _ => false

/-- A bus on which no other device pulls a line low. -/
def noOthers : List MicroOp → Line → Bool := fun _ _ => false

end Sys2Proof.Machine
end

