-- ==== Sys2Proof/Safety.lean ====
section
/-! DEFINITION. What counts as a good state, the named premises on the environment (R33), and the relations between the
states before and after a command that claims are stated in. -/

namespace Sys2Proof.Machine

/-! ## The invariant -/

/-- A micro-program that has something left to do. -/
def Prog.unfinished : Prog → Bool
  | .finish _ _ => false
  | .release _ _ _ => true
  | .pullLow _ _ _ => true
  | .sample _ _ _ => true

/-- The phase of a program's first micro-operation. -/
def Prog.phase : Prog → Phase
  | .release ph _ _ => ph
  | .pullLow ph _ _ => ph
  | .sample ph _ _ => ph
  | .finish _ _ => .framing

/-- The block is in the reset state (R26, R105). -/
def State.inResetState (s : State) : Prop :=
  (∀ l, s.oe l = false) ∧ s.busy = false ∧ s.err = .ok ∧ s.sbit = false ∧ s.rdata = none ∧ s.ifc = none ∧ s.history = []

/-- The command in flight, if there is one, is one of the eleven, and `UPC` and the trace fit it: something is left to do, and
`UPC` is at most 152 (R22, R23). -/
def State.inFlightGood (s : State) : Prop :=
  ∀ i, s.ifc = some i →
    i.isCore = true ∧ i.wellFormed = true ∧ s.upc ≤ s.history.length ∧ s.upc ≤ 152 ∧
    ∃ p, s.pending i = some p ∧ p.unfinished = true

/-- The invariant of the machine: `IFC` is none exactly when `BUSY` is 0 (R22); a command in flight has `ERR` cleared (R20)
and fits its trace (R23); the drive states are what the trace left (R15, R61, R62); `SBIT` is the last sample since reset
(R18); while reset is asserted the block is in the reset state (R105). -/
structure State.Inv (s : State) : Prop where
  busy_iff_inFlight : s.busy = s.ifc.isSome
  err_clear_in_flight : s.busy = true → s.err = .ok
  in_flight : s.inFlightGood
  drive_is_traced : ∀ l, s.oe l = drivenAfter s.history l
  sbit_is_last_sample : s.sbit = lastSample false s.history
  reset_holds : s.resetAsserted = true → s.inResetState

/-! ## Named premises on the environment (R33) -/

/-- `ENV-NOHANG`: no byte transfer hangs. -/
def State.envNoHang (s : State) : Prop := ∀ h, s.bus.hangsAt s.resets h = false

/-- `ENV-LOW`: a line the block drives low samples 0. -/
def State.envLow (s : State) : Prop := ∀ h l, drivenAfter h l = true → s.bus.level s.resets h l = false

/-- `ENV-PULLUP`: a released line that no other device pulls low samples 1. -/
def State.envPullUp (s : State) (others : List MicroOp → Line → Bool) : Prop :=
  ∀ h l, drivenAfter h l = false → others h l = false → s.bus.level s.resets h l = true

/-- `ENV-NOSTRETCH`: no other device holds SCL low after the block releases it (R33, R47). -/
def envNoStretch (others : List MicroOp → Line → Bool) : Prop := ∀ h, drivenAfter h .scl = false → others h .scl = false

/-- `ENV-SETTLED`: the settle delay is no shorter than any of the times that the lines and the devices need (R33, R117), in the
unit of `tSettle`. The model has no time, so its samples do not depend on it (log 20). -/
def envSettled (p : Params) (needed : List Nat) : Prop := ∀ x ∈ needed, x ≤ p.tSettle

/-- The level of a line is the wired AND of all drivers: what R33 says holds under `ENV-LOW` and `ENV-PULLUP` (93 G2,
log 17). -/
def State.wiredAnd (s : State) (others : List MicroOp → Line → Bool) : Prop :=
  ∀ h l, s.bus.level s.resets h l = wireLevel others h l

/-- The block drives neither line after the history `h`: an idle bus. -/
def idleAfter (h : List MicroOp) : Prop := ∀ l, drivenAfter h l = false

/-! ## Before and after a command -/

/-- What no command touches: the parameters, the environment, the reset input, and everything that is the host's. -/
def sameOutside (s t : State) : Prop :=
  t.params = s.params ∧ t.bus = s.bus ∧ t.resets = s.resets ∧ t.resetAsserted = s.resetAsserted ∧
  t.pinReads = s.pinReads ∧ t.host = s.host ∧ t.hostData = s.hostData

/-- A command issued in `s` completed in `t`, having performed the trace `tr`, with result `r` (R11, R20); what no command
touches is as before. -/
def completed (s t : State) (tr : List MicroOp) (r : Result) : Prop :=
  t.busy = false ∧ t.ifc = none ∧ t.err = r ∧ t.history = s.history ++ tr ∧ sameOutside s t

/-- The command `i`, issued in `s`, hangs in `t` (R104): it is the command in flight, it has performed `tr`, which is a prefix of
its trace that ends inside a byte transfer (log 3), and it goes no further. -/
def hung (i : Instr) (s t : State) (tr : List MicroOp) : Prop :=
  (∃ q, (program s.params i).after tr = some q ∧ q.unfinished = true ∧ q.phase = .byteTransfer) ∧
  t.busy = true ∧ t.ifc = some (i.expand s.params) ∧ t.err = .ok ∧ t.upc = tr.length ∧ t.history = s.history ++ tr ∧
  t.rdata = s.rdata ∧ sameOutside s t ∧ t.hangsHere = true

end Sys2Proof.Machine

namespace Sys2Proof

/-! ## The access matrix (R27), by the command's core form -/

/-- Column `OE`: the value a line ends with when the command has completed; none where the command does not touch it. -/
def Instr.endOe : Instr → Line → Option Bool
  | .rel l, l' => if l' = l then some false else none
  | .low l, l' => if l' = l then some true else none
  | .smp _, _ => none
  | .start, _ => some true
  | .stop, _ => some false
  | .sendb _, l' => some (decide (l' = .scl))
  | .recvb, l' => some (decide (l' = .scl))
  | .mack, _ => some true
  | .mnack, l' => some (decide (l' = .scl))
  | .wrcmd _ _, _ => some false
  | .rdreg _ _, _ => some false
  | .cfg1shot, _ => some false
  | .startconv, _ => some false
  | .rdstat, _ => some false
  | .rdtemp, _ => some false

/-- Column `SBIT`: whether the command writes it. -/
def Instr.writesSbit : Instr → Bool
  | .rel _ => false
  | .low _ => false
  | .smp _ => true
  | .start => true
  | .stop => false
  | .sendb _ => true
  | .recvb => true
  | .mack => false
  | .mnack => false
  | .wrcmd _ _ => true
  | .rdreg _ _ => true
  | .cfg1shot => true
  | .startconv => true
  | .rdstat => true
  | .rdtemp => true

/-- Column `RDATA`: whether the command writes it when it completes with `OK`. -/
def Instr.writesRdata : Instr → Bool
  | .rel _ => false
  | .low _ => false
  | .smp _ => false
  | .start => false
  | .stop => false
  | .sendb _ => false
  | .recvb => true
  | .mack => false
  | .mnack => false
  | .wrcmd _ _ => false
  | .rdreg _ _ => true
  | .cfg1shot => false
  | .startconv => false
  | .rdstat => true
  | .rdtemp => true

/-- Column `ERR`: the results the command can have. -/
def Instr.results : Instr → List Machine.Result
  | .rel _ => [.ok]
  | .low _ => [.ok]
  | .smp _ => [.ok]
  | .start => [.ok, .busBusy]
  | .stop => [.ok]
  | .sendb _ => [.ok, .noAck]
  | .recvb => [.ok]
  | .mack => [.ok]
  | .mnack => [.ok]
  | .wrcmd _ _ => [.ok, .busBusy, .addrNack, .noAck]
  | .rdreg _ _ => [.ok, .busBusy, .addrNack, .noAck]
  | .cfg1shot => [.ok, .busBusy, .addrNack, .noAck]
  | .startconv => [.ok, .busBusy, .addrNack, .noAck]
  | .rdstat => [.ok, .busBusy, .addrNack, .noAck]
  | .rdtemp => [.ok, .busBusy, .addrNack, .noAck]

/-- Whether the command contains a byte transfer, so that it may hang (R104). -/
def Instr.transfersBytes : Instr → Bool
  | .rel _ => false
  | .low _ => false
  | .smp _ => false
  | .start => false
  | .stop => false
  | .sendb _ => true
  | .recvb => true
  | .mack => false
  | .mnack => false
  | .wrcmd _ _ => true
  | .rdreg _ _ => true
  | .cfg1shot => true
  | .startconv => true
  | .rdstat => true
  | .rdtemp => true

end Sys2Proof

namespace Sys2Proof.Machine

/-! ## The paths of the sequencer's commands (R79, R83) -/

/-- A path: the trace and the result. -/
abbrev Path := List MicroOp × Result

/-- The paths of `WRCMD` (R78, R79, R80), the rows of its table and the successful one. -/
def wrcmdPaths (p : Params) (code payload : Byte) : List Path :=
  [(startTrace true ++ stopTrace, .busBusy),
   (startTrace false ++ sendTrace (addrW p) true ++ stopTrace, .addrNack),
   (startTrace false ++ sendTrace (addrW p) false ++ sendTrace code true ++ stopTrace, .noAck)] ++
  (if code = p.cmdConfig then
    [(startTrace false ++ sendTrace (addrW p) false ++ sendTrace code false ++ sendTrace payload true ++ stopTrace, .noAck),
     (startTrace false ++ sendTrace (addrW p) false ++ sendTrace code false ++ sendTrace payload false ++ stopTrace, .ok)]
   else
    [(startTrace false ++ sendTrace (addrW p) false ++ sendTrace code false ++ stopTrace, .ok)])

/-- The paths on which `RDREG` fails (R83), the rows of its table. -/
def rdregFailures (p : Params) (code : Byte) : List Path :=
  [(startTrace true ++ stopTrace, .busBusy),
   (startTrace false ++ sendTrace (addrW p) true ++ stopTrace, .addrNack),
   (startTrace false ++ sendTrace (addrW p) false ++ sendTrace code true ++ stopTrace, .noAck),
   (startTrace false ++ sendTrace (addrW p) false ++ sendTrace code false ++ startTrace true ++ stopTrace, .busBusy),
   (startTrace false ++ sendTrace (addrW p) false ++ sendTrace code false ++ startTrace false ++
    sendTrace (addrR p) true ++ stopTrace, .addrNack)]

/-- What `RDREG` performs before it receives, when every step succeeds (R82). -/
def rdregAddressed (p : Params) (code : Byte) : List MicroOp :=
  startTrace false ++ sendTrace (addrW p) false ++ sendTrace code false ++ startTrace false ++ sendTrace (addrR p) false

/-- The receive part of `RDREG`: every byte acknowledged but the last (R82). -/
def receivedTrace : List Byte → List MicroOp
  | [] => []
  | [v] => receiveTrace v ++ nackTrace
  | v :: w :: vs => receiveTrace v ++ ackTrace ++ receivedTrace (w :: vs)

/-- The trace of a successful `RDREG` that receives the bytes `vs` (R82, R46). -/
def rdregTrace (p : Params) (code : Byte) (vs : List Byte) : List MicroOp :=
  rdregAddressed p code ++ receivedTrace vs ++ stopTrace

/-! ## The sensor (R41) -/

/-- What `RDREG` has performed when it has received the bytes `vs` and acknowledged them all (R82). -/
def readingTrace (p : Params) (code : Byte) (vs : List Byte) : List MicroOp :=
  rdregAddressed p code ++ vs.flatMap fun v => receiveTrace v ++ ackTrace

/-- `ENV-SLAVE`: the device that `low` describes behaves as R41 says, in every transaction that the block begins on an idle bus
after a history that `bound` admits, with the codes whose use the source describes (R31; for others 93 U6 leaves the sensor
open). `bound` is an argument because 93 leaves the sensor open after some histories: a read with the wrong byte count (U5), a
transaction left unfinished (U7), commands whose entry condition was not met (U12). Which histories it admits is for the claim
to say; the model settles none of these (log 2). `bytes h code` are the bytes of the register that `code` selects, and `done h`
is whether a conversion has completed, in a read that begins after `h`. -/
structure EnvSlave (p : Params) (bound : List MicroOp → Prop) (low : List MicroOp → Line → Bool)
    (bytes : List MicroOp → Byte → List Byte) (done : List MicroOp → Bool) : Prop where
  /-- (a) It pulls SDA low in the ninth clock pulse of its own address byte. -/
  acks_address : ∀ h, idleAfter h → bound h → low (h ++ (startTrace false ++ sendPrefix (addrW p))) .sda = true
  /-- (a) Of the command code. -/
  acks_code : ∀ h, idleAfter h → bound h → ∀ code ∈ [p.cmdConfig, p.cmdStartConv, p.cmdReadTemp],
    low (h ++ (startTrace false ++ sendTrace (addrW p) false ++ sendPrefix code)) .sda = true
  /-- (a) Of the payload byte. -/
  acks_payload : ∀ h, idleAfter h → bound h →
    low (h ++ (startTrace false ++ sendTrace (addrW p) false ++ sendTrace p.cmdConfig false ++
      sendPrefix p.oneShotPayload)) .sda = true
  /-- (a), (c) Of the read address byte, after the command code has been written. -/
  acks_read_address : ∀ h, idleAfter h → bound h → ∀ code ∈ [p.cmdConfig, p.cmdReadTemp],
    low (h ++ (startTrace false ++ sendTrace (addrW p) false ++ sendTrace code false ++ startTrace false ++
      sendPrefix (addrR p))) .sda = true
  /-- (b) Then it drives the bits of its bytes, one per clock pulse, most significant first. -/
  drives_bits : ∀ h, idleAfter h → bound h → ∀ code ∈ [p.cmdConfig, p.cmdReadTemp], ∀ (k : Nat) (v : Byte),
    (bytes h code)[k]? = some v → ∀ j : Fin 8,
      low (h ++ (readingTrace p code ((bytes h code).take k) ++ [.release .sda] ++
        ((bitsMsbFirst v).take j.val).flatMap sampledBitTrace ++ [.release .scl])) .sda = !v.getLsbD (7 - j.val)
  /-- (b) And it releases SDA for the master's acknowledgment pulse. -/
  releases_for_ack : ∀ h, idleAfter h → bound h → ∀ code ∈ [p.cmdConfig, p.cmdReadTemp], ∀ (k : Nat) (v : Byte),
    (bytes h code)[k]? = some v → ∀ m ∈ [MicroOp.pullLow .sda, .release .sda],
      low (h ++ (readingTrace p code ((bytes h code).take k) ++ receiveTrace v ++ [m, .release .scl])) .sda = false
  /-- The status register has one byte, the temperature register two (R31, R38). -/
  register_sizes : ∀ h, idleAfter h → bound h → (bytes h p.cmdConfig).length = 1 ∧ (bytes h p.cmdReadTemp).length = 2
  /-- (d) The status byte carries the done-flag. -/
  status_is_done : ∀ h, idleAfter h → bound h → ∀ v, (bytes h p.cmdConfig)[0]? = some v → doneFlag v = done h
  /-- (e) It never stretches the clock. -/
  no_stretch : envNoStretch low

end Sys2Proof.Machine
end

