-- ==== Sys2Proof/Certificates/Slice0/Obligations.lean ====
section
/-! DEFINITION. The statements about the machine, from the numbered rules of spec/. Each docstring names the rules it
formalises. A hypothesis `s.answers tr = true` reads: the environment answers the samples of the trace `tr` as the trace says,
if it is performed now. -/

open Sys2Proof Sys2Proof.Machine

/-! ## Encoding (30_encoding.md) -/

/-- R57, R58: decoding an encoded well-formed instruction gives the command it stands for, which is the instruction itself for
the eleven commands of R51. -/
def Obligations.DecodeOfEncodeIsTheCommand : Prop :=
  ∀ (p : Params) (i : Instr), i.wellFormed = true →
    decode (encode p i) = .ok (i.expand p) ∧ (i.isCore = true → decode (encode p i) = .ok i)

/-- R58: encoding a decoded word gives it back (the model keeps an ignored payload), and what a word decodes to is a
well-formed command of R51. Keeping the payload is the model's choice of the two R58 allows (log 22). -/
def Obligations.EncodeOfDecodeIsTheWord : Prop :=
  ∀ (p : Params) (w : CmdWord) (i : Instr), decode w = .ok i →
    encode p i = w ∧ i.isCore = true ∧ i.wellFormed = true

/-- R51, R53: a word is legal exactly when it selects a row of the opcode map, and no word selects two rows. -/
def Obligations.LegalWordsAreTheWordsOfOneRow : Prop :=
  (∀ w : CmdWord, (∃ i, decode w = .ok i) ↔ ∃ row ∈ opcodeRows, selectsRow w row = true) ∧
  (∀ (w : CmdWord) (x y : Fin opcodeRows.length),
    selectsRow w opcodeRows[x] = true → selectsRow w opcodeRows[y] = true → x = y)

/-- R51, R53: words of every format, written out from the encoding, and words with a must-be-zero bit set or an unassigned
opcode (95_test_vectors.md, V60 to V81). -/
def Obligations.WordsFromTheTableDecode : Prop :=
  decode 0x010000#24 = .ok (.rel .scl) ∧ decode 0x020100#24 = .ok (.low .sda) ∧ decode 0x030000#24 = .ok (.smp .scl) ∧
  decode 0x100000#24 = .ok .start ∧ decode 0x110000#24 = .ok .stop ∧ decode 0x129000#24 = .ok (.sendb 0x90#8) ∧
  decode 0x130000#24 = .ok .recvb ∧ decode 0x140000#24 = .ok .mack ∧ decode 0x150000#24 = .ok .mnack ∧
  decode 0x20AC01#24 = .ok (.wrcmd 0xAC#8 0x01#8) ∧ decode 0x21AA00#24 = .ok (.rdreg 0xAA#8 1) ∧
  decode 0x21AA01#24 = .ok (.rdreg 0xAA#8 2) ∧
  decode 0x000000#24 = .error .unassignedOpcode ∧ decode 0xFFFFFF#24 = .error .unassignedOpcode ∧
  decode 0x010200#24 = .error .reservedBitSet ∧ decode 0x100100#24 = .error .reservedBitSet ∧
  decode 0x129001#24 = .error .reservedBitSet ∧ decode 0x21AA02#24 = .error .reservedBitSet

/-- R56, R57: what the lines of each form assemble to, as words: a line operand selects bit 8; a byte operand is a number 0 to
255 or the name of a parameter; `payload` may be omitted when the code is not `CMD_CONFIG`, and then is 0; the `n` of `RDREG` is 1
or 2 and assembles to `w = n - 1`; the four names assemble to their expansion; and whatever a line assembles to is a legal word.
Log 23's, not R56's, is: that the names are those of the four byte-wide parameters; that a line operand or a number above 255 is no
byte operand; that nothing is assembled when the payload is omitted with `CMD_CONFIG`, when the count is a number other than 1 and
2, when operands follow a mnemonic that takes none, and when `REL`, `LOW`, `SMP` or `SENDB` has not exactly one; and that the text
of a line below mnemonic and operands is not modelled. Of `WRCMD` and `RDREG` with other numbers or kinds of operands, and of `REL`,
`LOW` and `SMP` with an operand that is no line, this says only that a word they assembled to would be legal. -/
def Obligations.LinesAssembleToTheWordsOfTheirForm : Prop :=
  ∀ p : Params,
    (∀ l : Line,
      assemble p .rel [.line l] = some (wordOf 0x01#8 (if l = .sda then 1#8 else 0#8) 0#8) ∧
      assemble p .low [.line l] = some (wordOf 0x02#8 (if l = .sda then 1#8 else 0#8) 0#8) ∧
      assemble p .smp [.line l] = some (wordOf 0x03#8 (if l = .sda then 1#8 else 0#8) 0#8)) ∧
    (assemble p .start [] = some 0x100000#24 ∧ assemble p .stop [] = some 0x110000#24 ∧
      assemble p .recvb [] = some 0x130000#24 ∧ assemble p .mack [] = some 0x140000#24 ∧
      assemble p .mnack [] = some 0x150000#24) ∧
    ((∀ n < 256, AsmOperand.byte? p (.number n) = some (BitVec.ofNat 8 n)) ∧
      (∀ n ≥ 256, AsmOperand.byte? p (.number n) = none) ∧ (∀ l, AsmOperand.byte? p (.line l) = none) ∧
      AsmOperand.byte? p .cmdConfig = some p.cmdConfig ∧ AsmOperand.byte? p .cmdStartConv = some p.cmdStartConv ∧
      AsmOperand.byte? p .cmdReadTemp = some p.cmdReadTemp ∧
      AsmOperand.byte? p .oneShotPayload = some p.oneShotPayload) ∧
    (∀ x : AsmOperand, assemble p .sendb [x] = (x.byte? p).map fun b => wordOf 0x12#8 b 0#8) ∧
    (∀ (c d : AsmOperand) (code payload : Byte), c.byte? p = some code → d.byte? p = some payload →
      assemble p .wrcmd [c, d] = some (wordOf 0x20#8 code payload)) ∧
    (∀ (c : AsmOperand) (code : Byte), c.byte? p = some code →
      assemble p .wrcmd [c] = if code = p.cmdConfig then none else some (wordOf 0x20#8 code 0#8)) ∧
    (∀ (c : AsmOperand) (code : Byte) (n : Nat), c.byte? p = some code →
      assemble p .rdreg [c, .number n] =
        if n = 1 ∨ n = 2 then some (wordOf 0x21#8 code (BitVec.ofNat 8 (n - 1))) else none) ∧
    (assemble p .cfg1shot [] = some (wordOf 0x20#8 p.cmdConfig p.oneShotPayload) ∧
      assemble p .startconv [] = some (wordOf 0x20#8 p.cmdStartConv 0#8) ∧
      assemble p .rdstat [] = some (wordOf 0x21#8 p.cmdConfig 0#8) ∧
      assemble p .rdtemp [] = some (wordOf 0x21#8 p.cmdReadTemp 1#8)) ∧
    (∀ ops : List AsmOperand, ops ≠ [] → ∀ m ∈ [Mnemonic.start, .stop, .recvb, .mack, .mnack, .cfg1shot, .startconv, .rdstat,
      .rdtemp], assemble p m ops = none) ∧
    (∀ ops : List AsmOperand, ops.length ≠ 1 → ∀ m ∈ [Mnemonic.rel, .low, .smp, .sendb], assemble p m ops = none) ∧
    ∀ (m : Mnemonic) (ops : List AsmOperand) (w : CmdWord), assemble p m ops = some w →
      ∃ i, parseCommand p m ops = some i ∧ i.wellFormed = true ∧ decode w = .ok (i.expand p)

/-! ## The line driver (40_line_driver.md) -/

/-- R61: `REL l`, its word, its effect, its trace, its one delay and what it leaves unchanged. -/
def Obligations.RelReleasesItsLine : Prop :=
  ∀ (l : Line) (s : State), s.busy = false →
    decode (wordOf 0x01#8 (bitByte (bitOfLine l)) 0#8) = .ok (.rel l) ∧
    ∃ t, exec (.rel l) s = .next t ∧ completed s t [.release l] .ok ∧
      (∀ l', t.oe l' = if l' = l then false else s.oe l') ∧ t.sbit = s.sbit ∧ t.rdata = s.rdata ∧
      delayCount [.release l] = 1

/-- R62: `LOW l`, its word, its effect, its trace, its one delay and what it leaves unchanged. -/
def Obligations.LowPullsItsLineLow : Prop :=
  ∀ (l : Line) (s : State), s.busy = false →
    decode (wordOf 0x02#8 (bitByte (bitOfLine l)) 0#8) = .ok (.low l) ∧
    ∃ t, exec (.low l) s = .next t ∧ completed s t [.pullLow l] .ok ∧
      (∀ l', t.oe l' = if l' = l then true else s.oe l') ∧ t.sbit = s.sbit ∧ t.rdata = s.rdata ∧
      delayCount [.pullLow l] = 1

/-- R63: `SMP l` writes the level that the environment answers to `SBIT`, whatever it is, and changes no drive state. -/
def Obligations.SmpReadsItsLine : Prop :=
  ∀ (l : Line) (s : State), s.busy = false →
    decode (wordOf 0x03#8 (bitByte (bitOfLine l)) 0#8) = .ok (.smp l) ∧
    ∃ t, exec (.smp l) s = .next t ∧ completed s t [.sample l (s.level l)] .ok ∧
      t.sbit = s.level l ∧ (∀ l', t.oe l' = s.oe l') ∧ t.rdata = s.rdata ∧
      delayCount [.sample l (s.level l)] = 0

/-! ## The transaction engine (41_transaction_engine.md) -/

/-- R67: `START` performs its five micro-operations, leaves both lines driven low on both results, and fails exactly when the
clock samples 1; `SBIT` is that sample. As a repeated start, from `(1, 0)` with no other device on the lines, it emits no
stop condition. The conditions on the wires are log 17's. -/
def Obligations.StartMakesAStartCondition : Prop :=
  decode 0x100000#24 = .ok .start ∧
  ∀ s : State, s.busy = false →
    ∃ v t, s.answers (startTrace v) = true ∧ exec .start s = .next t ∧
      completed s t [.release .scl, .release .sda, .pullLow .sda, .pullLow .scl, .sample .scl v]
        (if v then .busBusy else .ok) ∧
      t.oe .scl = true ∧ t.oe .sda = true ∧ t.sbit = v ∧ t.rdata = s.rdata ∧
      (drivenAfter s.history .scl = true → drivenAfter s.history .sda = false →
        .stopCondition ∉ conditions noOthers s.history (startTrace v))

/-- R68: `STOP` performs its three micro-operations, samples nothing, cannot fail and leaves the bus idle. -/
def Obligations.StopMakesAStopCondition : Prop :=
  decode 0x110000#24 = .ok .stop ∧
  ∀ s : State, s.busy = false →
    ∃ t, exec .stop s = .next t ∧ completed s t [.pullLow .sda, .release .scl, .release .sda] .ok ∧
      t.oe .scl = false ∧ t.oe .sda = false ∧ t.sbit = s.sbit ∧ t.rdata = s.rdata

/-- R69, R74: `SENDB byte`, where nothing hangs: the whole trace is performed, the acknowledgment is the one sample, in the
ninth clock pulse, and decides the result; the clock ends driven low and the data line released on both results. -/
def Obligations.SendbTransmitsAByte : Prop :=
  ∀ (byte : Byte) (s : State), s.busy = false → s.envNoHang →
    decode (wordOf 0x12#8 byte 0#8) = .ok (.sendb byte) ∧
    ∃ ack t, s.answers (sendTrace byte ack) = true ∧ exec (.sendb byte) s = .next t ∧
      completed s t (sendTrace byte ack) (if ack then .noAck else .ok) ∧
      t.oe .scl = true ∧ t.oe .sda = false ∧ t.sbit = ack ∧ t.rdata = s.rdata ∧
      (sendTrace byte ack).length = 28 ∧ delayCount (sendTrace byte ack) = 27 ∧
      sampleCount (sendTrace byte ack) = 1 ∧ pulseCount (sendTrace byte ack) = 9

/-- R70: `RECVB`, where nothing hangs: the byte whose bits the eight samples are, first bit in bit 7, goes to `RDATA`, and its
bit 0 is left in `SBIT`; it cannot fail. With no device driving the lines a healthy bus yields 0xFF. -/
def Obligations.RecvbReceivesAByte : Prop :=
  decode 0x130000#24 = .ok .recvb ∧
  ∀ s : State, s.busy = false → s.envNoHang →
    ∃ v t, s.answers (receiveTrace v) = true ∧ exec .recvb s = .next t ∧ completed s t (receiveTrace v) .ok ∧
      t.oe .scl = true ∧ t.oe .sda = false ∧ t.sbit = v.getLsbD 0 ∧ t.rdata = some v ∧
      (receiveTrace v).length = 25 ∧ delayCount (receiveTrace v) = 17 ∧ sampleCount (receiveTrace v) = 8 ∧
      pulseCount (receiveTrace v) = 8 ∧ (s.envPullUp noOthers → v = 0xFF#8)

/-- R71: `MACK`. -/
def Obligations.MackAcknowledges : Prop :=
  decode 0x140000#24 = .ok .mack ∧
  ∀ s : State, s.busy = false →
    ∃ t, exec .mack s = .next t ∧ completed s t [.pullLow .sda, .release .scl, .pullLow .scl] .ok ∧
      t.oe .scl = true ∧ t.oe .sda = true ∧ t.sbit = s.sbit ∧ t.rdata = s.rdata

/-- R72: `MNACK`. -/
def Obligations.MnackDoesNotAcknowledge : Prop :=
  decode 0x150000#24 = .ok .mnack ∧
  ∀ s : State, s.busy = false →
    ∃ t, exec .mnack s = .next t ∧ completed s t [.release .sda, .release .scl, .pullLow .scl] .ok ∧
      t.oe .scl = true ∧ t.oe .sda = false ∧ t.sbit = s.sbit ∧ t.rdata = s.rdata

/-! ## The sequencer (42_sensor_sequencer.md) -/

/-- R78, R79, R80, R95: `WRCMD`, where nothing hangs, takes the path of its table that the environment's answers select, with
that path's trace and result; it ends with the bus idle and does not touch `RDATA`. -/
def Obligations.WrcmdTakesAPathOfItsTable : Prop :=
  ∀ (code payload : Byte) (s : State), s.busy = false → s.envNoHang →
    ∃ path ∈ wrcmdPaths s.params code payload, ∃ t,
      s.answers path.1 = true ∧ exec (.wrcmd code payload) s = .next t ∧ completed s t path.1 path.2 ∧
      (∀ l, t.oe l = false) ∧ t.sbit = lastSample s.sbit path.1 ∧ t.rdata = s.rdata

/-- R79, R126: the environment's answers select one path of `WRCMD` only. -/
def Obligations.WrcmdPathsExcludeEachOther : Prop :=
  ∀ (p : Params) (code payload : Byte) (e : Environment) (n : Nat) (h : List MicroOp) (x y : Path),
    x ∈ wrcmdPaths p code payload → y ∈ wrcmdPaths p code payload →
    answersAgree e n h x.1 = true → answersAgree e n h y.1 = true → x = y

/-- R54, R80: for a code other than `CMD_CONFIG` the payload is ignored, where nothing hangs. -/
def Obligations.WrcmdIgnoresThePayloadOfOtherCodes : Prop :=
  ∀ (code x y : Byte) (s : State), s.busy = false → s.envNoHang → code ≠ s.params.cmdConfig →
    ∃ t, exec (.wrcmd code x) s = .next t ∧ exec (.wrcmd code y) s = .next t ∧ t.busy = false

/-- R82, R83, R84, R95: `RDREG`, where nothing hangs, either takes a failing path of its table, leaving `RDATA`, or receives as
many bytes as were asked for and returns the first; it ends with the bus idle. -/
def Obligations.RdregFailsOrReturnsTheFirstByte : Prop :=
  ∀ (code : Byte) (n : Nat) (s : State), n = 1 ∨ n = 2 → s.busy = false → s.envNoHang →
    (∃ path ∈ rdregFailures s.params code, ∃ t,
      s.answers path.1 = true ∧ exec (.rdreg code n) s = .next t ∧ completed s t path.1 path.2 ∧
      (∀ l, t.oe l = false) ∧ t.sbit = true ∧ t.rdata = s.rdata) ∨
    (∃ v vs t, (v :: vs).length = n ∧ s.answers (rdregTrace s.params code (v :: vs)) = true ∧
      exec (.rdreg code n) s = .next t ∧ completed s t (rdregTrace s.params code (v :: vs)) .ok ∧
      (∀ l, t.oe l = false) ∧ t.sbit = ((v :: vs).getLast (by simp)).getLsbD 0 ∧ t.rdata = some v)

/-- R52, 92 D11: a count that no word encodes is refused. The refusal is the model's choice (log 18). -/
def Obligations.RdregRefusesOtherCounts : Prop :=
  ∀ (code : Byte) (n : Nat) (s : State), s.busy = false → n ≠ 1 → n ≠ 2 →
    exec (.rdreg code n) s = .refused .readCountNotEncodable

/-- R57, R85, R86, R87, R88: a pseudo-command assembles to the word of the command it stands for and does what that does. -/
def Obligations.NamedFormsAreTheirExpansion : Prop :=
  ∀ (p : Params) (s : State),
    encode p .cfg1shot = wordOf 0x20#8 p.cmdConfig p.oneShotPayload ∧
    encode p .startconv = wordOf 0x20#8 p.cmdStartConv 0#8 ∧
    encode p .rdstat = wordOf 0x21#8 p.cmdConfig 0#8 ∧
    encode p .rdtemp = wordOf 0x21#8 p.cmdReadTemp 1#8 ∧
    exec .cfg1shot s = exec (.wrcmd s.params.cmdConfig s.params.oneShotPayload) s ∧
    exec .startconv s = exec (.wrcmd s.params.cmdStartConv 0#8) s ∧
    exec .rdstat s = exec (.rdreg s.params.cmdConfig 1) s ∧
    exec .rdtemp s = exec (.rdreg s.params.cmdReadTemp 2) s

/-- R85, R86, R31: the named writes, where nothing hangs, take a path of their table; configure-one-shot sends its payload and
start-conversion, whose code differs (R6), sends none. -/
def Obligations.NamedWritesComplete : Prop :=
  ∀ s : State, s.busy = false → s.envNoHang →
    (∃ path ∈ wrcmdPaths s.params s.params.cmdConfig s.params.oneShotPayload, ∃ t,
      s.answers path.1 = true ∧ exec .cfg1shot s = .next t ∧ completed s t path.1 path.2 ∧
      (path.2 = .ok → path.1 = startTrace false ++ sendTrace (addrW s.params) false ++
        sendTrace s.params.cmdConfig false ++ sendTrace s.params.oneShotPayload false ++ stopTrace) ∧
      (∀ l, t.oe l = false) ∧ t.rdata = s.rdata) ∧
    (∃ path ∈ wrcmdPaths s.params s.params.cmdStartConv 0#8, ∃ t,
      s.answers path.1 = true ∧ exec .startconv s = .next t ∧ completed s t path.1 path.2 ∧
      (path.2 = .ok → path.1 = startTrace false ++ sendTrace (addrW s.params) false ++
        sendTrace s.params.cmdStartConv false ++ stopTrace) ∧
      (∀ l, t.oe l = false) ∧ t.rdata = s.rdata)

/-- R87, R88, R31, R36: the named reads, where nothing hangs, fail and leave `RDATA`, or read one status byte, or two bytes of
which the first is returned. -/
def Obligations.NamedReadsComplete : Prop :=
  ∀ s : State, s.busy = false → s.envNoHang →
    ((∃ path ∈ rdregFailures s.params s.params.cmdConfig, ∃ t,
        exec .rdstat s = .next t ∧ completed s t path.1 path.2 ∧ t.rdata = s.rdata) ∨
     (∃ v t, exec .rdstat s = .next t ∧ completed s t (rdregTrace s.params s.params.cmdConfig [v]) .ok ∧
        t.rdata = some v)) ∧
    ((∃ path ∈ rdregFailures s.params s.params.cmdReadTemp, ∃ t,
        exec .rdtemp s = .next t ∧ completed s t path.1 path.2 ∧ t.rdata = s.rdata) ∨
     (∃ v w t, exec .rdtemp s = .next t ∧ completed s t (rdregTrace s.params s.params.cmdReadTemp [v, w]) .ok ∧
        t.rdata = some v))

/-- 95_test_vectors.md P5, R84: the read built from engine commands performs the trace of `RDREG` with count 2: the sequencer
adds nothing on the wires. The end states differ in `RDATA`: the last byte against the first. -/
def Obligations.SequencerReadIsItsEngineCommands : Prop :=
  ∀ (code v w : Byte) (s : State), s.busy = false → s.envNoHang →
    s.answers (rdregTrace s.params code [v, w]) = true →
    ∃ t u,
      execAll [.start, .sendb (addrW s.params), .sendb code, .start, .sendb (addrR s.params), .recvb, .mack, .recvb,
        .mnack, .stop] s = .next t ∧
      exec (.rdreg code 2) s = .next u ∧ t.history = u.history ∧ (∀ l, t.oe l = u.oe l) ∧ t.sbit = u.sbit ∧
      t.err = u.err ∧ t.rdata = some w ∧ u.rdata = some v

/-! ## Operands and counts -/

/-- R35, R125: the bits of a byte go out most significant first; the shift-in step is `((acc << 1) | bit) mod 256`; receiving the
bits in the order in which they go out gives the byte back, whatever the accumulator held before. -/
def Obligations.ReceivingTheSentBitsGivesTheByte : Prop :=
  (∀ (acc : Byte) (bit : Bool), shiftIn acc bit = (acc <<< 1) ||| (if bit then 1#8 else 0#8)) ∧
  ∀ b : Byte, (∀ acc : Byte, (bitsMsbFirst b).foldl shiftIn acc = b) ∧ (bitsMsbFirst b).length = 8 ∧
    ∀ k : Fin 8, (bitsMsbFirst b)[k.val]? = some (b.getLsbD (7 - k.val))

/-- R37: the address bytes: the 7-bit address in bits 7:1, the direction in bit 0, and `ADDR_R = ADDR_W + 1`. -/
def Obligations.AddressBytesCarryTheDirection : Prop :=
  ∀ p : Params, addrW p = (p.addr7.setWidth 8) <<< 1 ∧ addrR p = ((p.addr7.setWidth 8) <<< 1 ||| 1#8) ∧
    addrR p = addrW p + 1#8

/-- R76, R122: micro-operations, delays, samples and clock pulses of the engine operations, whatever the byte and the
samples. -/
def Obligations.EngineOperationCounts : Prop :=
  ∀ (p : Params) (b : Byte) (v : Bool),
    ((startTrace v).length, delayCount (startTrace v), sampleCount (startTrace v), pulseCount (startTrace v)) = (5, 4, 1, 0) ∧
    (stopTrace.length, delayCount stopTrace, sampleCount stopTrace, pulseCount stopTrace) = (3, 3, 0, 0) ∧
    ((sendTrace b v).length, delayCount (sendTrace b v), sampleCount (sendTrace b v), pulseCount (sendTrace b v)) =
      (28, 27, 1, 9) ∧
    ((receiveTrace b).length, delayCount (receiveTrace b), sampleCount (receiveTrace b), pulseCount (receiveTrace b)) =
      (25, 17, 8, 8) ∧
    (ackTrace.length, delayCount ackTrace, sampleCount ackTrace, pulseCount ackTrace) = (3, 3, 0, 1) ∧
    (nackTrace.length, delayCount nackTrace, sampleCount nackTrace, pulseCount nackTrace) = (3, 3, 0, 1) ∧
    duration p (sendTrace b v) = 27 * p.tSettle

/-- R123: delays, micro-operations, samples and result of every path of the sequencer's commands: each path in the tables is a
whole trace of the command's micro-program, which ends there with the path's result. -/
def Obligations.SequencerPathCounts : Prop :=
  ∀ (p : Params) (code payload v w : Byte),
    (wrcmdPaths p code payload).map (fun x => (delayCount x.1, x.1.length, sampleCount x.1, x.2)) =
      [(7, 8, 1, .busBusy), (34, 36, 2, .addrNack), (61, 64, 3, .noAck)] ++
      (if code = p.cmdConfig then [(88, 92, 4, .noAck), (88, 92, 4, .ok)] else [(61, 64, 3, .ok)]) ∧
    (∀ x ∈ wrcmdPaths p code payload, (program p (.wrcmd code payload)).after x.1 = some (.finish x.2 none)) ∧
    (rdregFailures p code).map (fun x => (delayCount x.1, x.1.length, sampleCount x.1, x.2)) =
      [(7, 8, 1, .busBusy), (34, 36, 2, .addrNack), (61, 64, 3, .noAck), (65, 69, 4, .busBusy), (92, 97, 5, .addrNack)] ∧
    (∀ x ∈ rdregFailures p code, ∀ n, (program p (.rdreg code n)).after x.1 = some (.finish x.2 none)) ∧
    (delayCount (rdregTrace p code [v]), (rdregTrace p code [v]).length, sampleCount (rdregTrace p code [v])) =
      (112, 125, 13) ∧
    (program p (.rdreg code 1)).after (rdregTrace p code [v]) = some (.finish .ok (some v)) ∧
    (delayCount (rdregTrace p code [v, w]), (rdregTrace p code [v, w]).length, sampleCount (rdregTrace p code [v, w])) =
      (132, 153, 21) ∧
    (program p (.rdreg code 2)).after (rdregTrace p code [v, w]) = some (.finish .ok (some v))

/-! ## All commands -/

/-- R91, R124: where nothing hangs, every well-formed command issued while `BUSY` is 0 completes, after at least one and at
most 153 micro-operations, with one of its results. -/
def Obligations.EveryCommandCompletesWithinItsBound : Prop :=
  ∀ (i : Instr) (s : State), i.wellFormed = true → s.busy = false → s.envNoHang →
    ∃ tr r t, exec i s = .next t ∧ completed s t tr r ∧ s.answers tr = true ∧ 0 < tr.length ∧ tr.length ≤ 153 ∧
      r ∈ i.results

/-- R27: the access matrix, row by row: what each completed command wrote, with which last value, and which results it can
have. A failed command left `SBIT` 1 (R91): the failing sample was the last. -/
def Obligations.AccessMatrixOfCompletedCommands : Prop :=
  ∀ (i : Instr) (s t : State), exec i s = .next t → t.busy = false →
    t.err ∈ i.results ∧
    (∀ l, t.oe l = (i.endOe l).getD (s.oe l)) ∧
    (i.writesSbit = false → t.sbit = s.sbit) ∧
    (i.writesRdata = false → t.rdata = s.rdata) ∧
    (i.writesRdata = true → t.err = .ok → t.rdata.isSome = true) ∧
    (t.err ≠ .ok → t.rdata = s.rdata ∧ t.sbit = true)

/-- R15, R18, R32: whatever an instruction does, completing or hanging, the drive states and `SBIT` are what its trace made of
them, the trace was appended to the history with the environment's answers, `RDATA` is written by `RECVB` and `RDREG` only, and
nothing of the host's, of the parameters or of the environment changes. -/
def Obligations.FrameOfEveryInstruction : Prop :=
  ∀ (i : Instr) (s t : State), exec i s = .next t →
    ∃ tr, t.history = s.history ++ tr ∧ s.answers tr = true ∧ (∀ l, t.oe l = drivenFrom (s.oe l) tr l) ∧
      t.sbit = lastSample s.sbit tr ∧ (i.writesRdata = false → t.rdata = s.rdata) ∧ sameOutside s t

/-- R27, R65, R24: what a command performs and answers depends on its operands, the parameters and the samples only: not on the
drive states, `SBIT`, `ERR`, `RDATA` or anything issued before. -/
def Obligations.TraceDependsOnOperandsAndSamplesOnly : Prop :=
  ∀ (i : Instr) (s s' t t' : State), s.params = s'.params → s.bus = s'.bus → s.resets = s'.resets →
    s.history = s'.history → exec i s = .next t → exec i s' = .next t' →
    t.history = t'.history ∧ t.err = t'.err ∧ t.busy = t'.busy ∧ t.ifc = t'.ifc

/-- R92: under `ENV-LOW` no command ends with `BUS_BUSY`. -/
def Obligations.BusIsNeverBusyUnderEnvLow : Prop :=
  ∀ (i : Instr) (s t : State), s.envLow → exec i s = .next t → t.busy = false → t.err ≠ .busBusy

/-- R95, R83: a completed sequencer command leaves the bus idle, and its trace ends with the stop condition, whether it failed
or not; a failed one leaves `RDATA`. -/
def Obligations.SequencerCommandsEndWithAStop : Prop :=
  ∀ (i : Instr) (code payload : Byte) (n : Nat) (s t : State),
    i.expand s.params = .wrcmd code payload ∨ i.expand s.params = .rdreg code n → exec i s = .next t → t.busy = false →
    (∃ tr, t.history = s.history ++ tr ++ stopTrace) ∧ (∀ l, t.oe l = false) ∧ (t.err ≠ .ok → t.rdata = s.rdata)

/-! ## Hangs (R104) -/

/-- R104, 93 U1: the outcome `Hang` is admitted, for every command that contains a byte transfer and at every point inside one:
whatever trace of the command leads to such a point, there is an environment on which the command performs exactly that trace and
goes no further. Then the same in the terms of `SENDB` and `RECVB`, of every sequencer command and pseudo-command (in its first
byte), and of `RDREG` (in its first received byte). That a point may be the first of a transfer, or lie in the acknowledgment
step of a byte that `RDREG` receives, is the model's reading (log 3). -/
def Obligations.ByteTransfersCanHangAnywhere : Prop :=
  ∀ s : State, s.busy = false →
    (∀ (i : Instr) (tr : List MicroOp) (q : Prog), i.wellFormed = true → (program s.params i).after tr = some q →
      q.unfinished = true → q.phase = .byteTransfer → s.answers tr = true →
      s.bus.hang = .after (s.history.length + tr.length) → ∃ t, exec i s = .next t ∧ hung i s t tr) ∧
    (∀ (byte : Byte) (k : Nat), k < 28 → s.bus.hang = .after (s.history.length + k) →
      ∃ ack t, exec (.sendb byte) s = .next t ∧ hung (.sendb byte) s t ((sendTrace byte ack).take k)) ∧
    (∀ k < 25, s.bus.hang = .after (s.history.length + k) →
      ∃ v t, exec .recvb s = .next t ∧ hung .recvb s t ((receiveTrace v).take k)) ∧
    (∀ (i : Instr) (k : Nat),
      i ∈ [.cfg1shot, .startconv, .rdstat, .rdtemp] ∨ (∃ code payload, i = .wrcmd code payload) ∨
        (∃ code n, i = .rdreg code n ∧ (n = 1 ∨ n = 2)) →
      k < 28 → s.answers (startTrace false) = true → s.bus.hang = .after (s.history.length + (5 + k)) →
      ∃ ack t, exec i s = .next t ∧ hung i s t (startTrace false ++ (sendTrace (addrW s.params) ack).take k)) ∧
    (∀ (code : Byte) (n k : Nat), n = 1 ∨ n = 2 → k < 25 → s.answers (rdregAddressed s.params code) = true →
      s.bus.hang = .after (s.history.length + (94 + k)) →
      ∃ v t, exec (.rdreg code n) s = .next t ∧
        hung (.rdreg code n) s t (rdregAddressed s.params code ++ (receiveTrace v).take k))

/-- R104: only a command that contains a byte transfer hangs, and it stays in flight, the command that was issued, after a prefix
of its own trace that ends inside a byte transfer, with the drive states that the prefix left and `RDATA` untouched. Which points
are inside a byte transfer is the model's reading (log 3). -/
def Obligations.OnlyByteTransfersHang : Prop :=
  ∀ (i : Instr) (s t : State), exec i s = .next t → t.busy = true →
    i.transfersBytes = true ∧ ∃ tr, hung i s t tr ∧ s.answers tr = true ∧ (∀ l, t.oe l = drivenFrom (s.oe l) tr l)

/-- R104, R106, R20: "Nothing lifts a hang except reset": time does not, and of the host's actions only reset does. -/
def Obligations.OnlyResetEndsAHang : Prop :=
  ∀ (i : Instr) (s t : State), exec i s = .next t → t.busy = true →
    (∀ n, tickMany n t = .next t) ∧
    (∀ a u, a ≠ .assertReset → hostStep a t = .next u →
      u.busy = true ∧ u.ifc = t.ifc ∧ u.upc = t.upc ∧ u.history = t.history ∧ u.hangsHere = true ∧ (∀ l, u.oe l = t.oe l)) ∧
    (∃ u, hostStep .assertReset t = .next u ∧ u.busy = false ∧ u.ifc = none ∧ (∀ l, u.oe l = false))

/-! ## The command in flight (R20, R22, R23) -/

/-- 92 D20: executing a command as one step is the same as issuing it and taking its micro-operations one by one: at most 153
ticks reach the same state, completed or hung. Both ways of issuing a command are log 11's. -/
def Obligations.BigStepIsManyMicroSteps : Prop :=
  ∀ (i : Instr) (s t : State), exec i s = .next t →
    ∃ n ≤ 153, tickMany n (s.issue (i.expand s.params)) = .next t

/-- R23, R9: in a good state with a command in flight, a tick performs one micro-operation, and `UPC` increases by exactly 1
while the command goes on, or the command hangs and nothing changes. -/
def Obligations.TickPerformsOneMicroOperation : Prop :=
  ∀ (s : State) (i : Instr), s.Inv → s.ifc = some i →
    ∃ t, tickCommand s = .next t ∧
      ((t = s ∧ s.hangsHere = true) ∨
       ((∃ m, t.history = s.history ++ [m]) ∧ (t.busy = true → t.upc = s.upc + 1 ∧ t.ifc = some i)))

/-- R20: a host write of a legal word to `CMD` while `BUSY` is 0 issues the command: it is latched, `UPC` and `ERR` are
cleared, `BUSY` is set, and nothing else changes. -/
def Obligations.WritingCmdIssuesTheCommand : Prop :=
  ∀ (w : CmdWord) (i : Instr) (s : State), decode w = .ok i → s.busy = false → s.resetAsserted = false →
    ∃ t, hostStep (.write .cmd w) s = .next t ∧ t.ifc = some i ∧ t.upc = 0 ∧ t.busy = true ∧ t.err = .ok ∧
      (∀ l, t.oe l = s.oe l) ∧ t.sbit = s.sbit ∧ t.rdata = s.rdata ∧ t.history = s.history ∧ sameOutside s t

/-- R20, R96: while `BUSY` is 1 every command and every write of `CMD` is refused, legal or not. The refusal is log 8's
reading. -/
def Obligations.CommandsWhileBusyAreRefused : Prop :=
  ∀ (i : Instr) (w : CmdWord) (s : State), s.busy = true →
    exec i s = .refused .commandWhileBusy ∧
    (s.resetAsserted = false → hostStep (.call w) s = .refused .commandWhileBusy ∧
      hostStep (.write .cmd w) s = .refused .commandWhileBusy)

/-- R53: an illegal word issued while `BUSY` is 0 completes at once with `ILLEGAL`: the trace is empty and `OE`, `SBIT` and
`RDATA` are unchanged. R53 also allows a refusal; completing is the model's choice (log 9). -/
def Obligations.IllegalWordsCompleteWithIllegal : Prop :=
  ∀ (w : CmdWord) (e : DecodeReject) (s : State), decode w = .error e → s.busy = false → s.resetAsserted = false →
    ∃ t, hostStep (.call w) s = .next t ∧ hostStep (.write .cmd w) s = .next t ∧ t.busy = false ∧ t.ifc = s.ifc ∧
      t.err = .illegal ∧ t.err.code = 4#3 ∧ t.history = s.history ∧ (∀ l, t.oe l = s.oe l) ∧ t.sbit = s.sbit ∧
      t.rdata = s.rdata ∧ sameOutside s t

/-! ## The host's registers and reset (10_state.md, 70_reset_and_hazards.md) -/

/-- R18, R91: the byte `STATUS`, bit by bit, and the numbers of the result codes. -/
def Obligations.StatusByteLayout : Prop :=
  ∀ s : State, s.status.getLsbD 0 = s.busy ∧ s.status.extractLsb' 1 3 = s.err.code ∧ s.status.getLsbD 4 = s.sbit ∧
    s.status.extractLsb' 5 3 = 0#3 ∧
    (Result.ok.code, Result.busBusy.code, Result.addrNack.code, Result.noAck.code, Result.illegal.code) =
      (0#3, 1#3, 2#3, 3#3, 4#3)

/-- R21: a read of `LINES` gives the drive states in bits 0 and 1, the input pins in bits 2 and 3 and 0 above; it is no sample and
changes nothing of the block: the state after it differs only in what the host has read and in the count of such reads. The pin
levels are the free value of log 12. -/
def Obligations.LinesIsAViewAndNoSample : Prop :=
  ∀ s : State, ∃ b, hostStep (.read .lines) s = .next { s with hostData := some b, pinReads := s.pinReads + 1 } ∧
    b.getLsbD 0 = s.oeScl ∧ b.getLsbD 1 = s.oeSda ∧ b.getLsbD 2 = s.pin .scl ∧ b.getLsbD 3 = s.pin .sda ∧
    b.extractLsb' 4 4 = 0#4

/-- R17, R28: the other register accesses: `STATUS` and `RDATA` read as they are, a read of an `RDATA` without a value
faults, a read of `CMD` is refused, and writes to read-only registers are ignored. The fault is the model's choice of the two
R28 allows (log 6). -/
def Obligations.HostRegisterAccesses : Prop :=
  ∀ (s : State) (w : CmdWord),
    hostStep (.read .status) s = .next { s with hostData := some s.status } ∧
    (∀ b, s.rdata = some b → hostStep (.read .rdata) s = .next { s with hostData := some b }) ∧
    (s.rdata = none → hostStep (.read .rdata) s = .fault .rdataHasNoValue) ∧
    hostStep (.read .cmd) s = .refused .readOfCmd ∧
    hostStep (.write .status w) s = .next s ∧ hostStep (.write .rdata w) s = .next s ∧
    hostStep (.write .lines w) s = .next s

/-- R26, R105: the reset values, and that after reset the block waits. `SBIT` 0 is the model's choice of the two R26 gives
(log 7). That the reset input is released in this state is log 24's choice, and that the host has nothing pending, so that a
step changes nothing, is log 10's. -/
def Obligations.ResetValues : Prop :=
  State.reset.oeScl = false ∧ State.reset.oeSda = false ∧ State.reset.busy = false ∧ State.reset.err = .ok ∧
  State.reset.sbit = false ∧ State.reset.status = 0x00#8 ∧ State.reset.rdata = none ∧ State.reset.ifc = none ∧
  State.reset.history = [] ∧ State.reset.resetAsserted = false ∧ step State.reset = .next State.reset

/-- R105, R106: asserting reset leads to the reset state from every state, also during a command; while it is asserted every host
action but its release leaves the block there, and a command called or written then has no effect; releasing it leaves the block
there. `SBIT` 0 in `STATUS` is log 7's choice; what reset keeps is log 4's; that such a word is lost is log 24's. -/
def Obligations.ResetFromEveryState : Prop :=
  ∀ s : State, ∃ t, hostStep .assertReset s = .next t ∧ t.inResetState ∧ t.status = 0x00#8 ∧ t.resetAsserted = true ∧
    t.params = s.params ∧ t.bus = s.bus ∧
    (∀ a u, a ≠ .releaseReset → hostStep a t = .next u → u.inResetState ∧ u.status = 0x00#8 ∧ u.resetAsserted = true) ∧
    (∀ w, hostStep (.call w) t = .next t ∧ hostStep (.write .cmd w) t = .next t) ∧ hostStep .tick t = .next t ∧
    ∃ u, hostStep .releaseReset t = .next u ∧ u.inResetState ∧ u.status = 0x00#8 ∧ u.resetAsserted = false

/-! ## Steps -/

/-- R45, R126: when the host's next action is to call a word that decodes to an instruction, and reset is not asserted (R105), the
step is that instruction executed in the state with the action taken off the list. The second part is the model's own way of
placing an instruction, with the reset input released. The third is that with no action pending the block goes on by itself, one
micro-operation of a command in flight (R99). The host's list is the model's own (log 10). -/
def Obligations.StepRunsTheDecodedInstruction : Prop :=
  (∀ (s : State) (w : CmdWord) (rest : List HostAction) (i : Instr), s.host = .call w :: rest → s.resetAsserted = false →
    decode w = .ok i → step s = exec i { s with host := rest }) ∧
  (∀ (s : State) (nbits w : Nat) (i : Instr), decodeTableWord nbits w = some i →
    step (s.withFetchWord nbits w) = exec i { s with resetAsserted := false }) ∧
  (∀ s : State, s.host = [] → s.resetAsserted = false → step s = tickCommand s)

/-- R20, R22, R23, R15, R18: the invariant holds at reset. -/
def Obligations.InvariantHoldsAtReset : Prop := State.reset.Inv

/-- R20, R22, R23, R15, R18: every step from a good state leads to a good state: `IFC` is none exactly when `BUSY` is 0, a
command in flight fits its trace and its `UPC` is at most 152, the drive states are what the trace since reset left, `SBIT` is its
last sample, and while reset is asserted the block is in the reset state (R105; that a command called or written then is lost is
log 24's reading). -/
def Obligations.EveryStepKeepsTheInvariant : Prop :=
  ∀ s t : State, s.Inv → step s = .next t → t.Inv

/-- From a good state no step loses track of the command in flight: the only fault is the read of an `RDATA` without a value
(R28). -/
def Obligations.GoodStatesFaultOnlyOnAnEmptyRdata : Prop :=
  ∀ (s : State) (f : Fault), s.Inv → step s = .fault f →
    f = .rdataHasNoValue ∧ s.rdata = none ∧ ∃ rest, s.host = .read .rdata :: rest

/-- R6, R25, R45: no step changes the parameters or the environment. Holding both in State is the model's choice (log 1, log
2). -/
def Obligations.NoStepChangesTheParameters : Prop :=
  ∀ s t : State, step s = .next t → t.params = s.params ∧ t.bus = s.bus

/-! ## The wires (20_memory.md section 2, 70_reset_and_hazards.md section 3) -/

/-- R75: inside a byte, sent or received, and its acknowledgment step, every change of `OE[SDA]` happens while the clock is
driven low, if it is driven low at entry. -/
def Obligations.DataChangesOnlyWithTheClockLow : Prop :=
  ∀ (h tr before after : List MicroOp) (m : MicroOp) (b : Byte) (ack : Bool), drivenAfter h .scl = true →
    tr ∈ [sendTrace b ack, receiveTrace b, ackTrace, nackTrace] → tr = before ++ m :: after →
    drivenAfter (h ++ before ++ [m]) .sda ≠ drivenAfter (h ++ before) .sda → drivenAfter (h ++ before) .scl = true

/-- R75, R34: so these traces make no start or stop condition, if the other devices too change the data line only while the
clock is driven low. The wires are log 17's. -/
def Obligations.BytesMakeNoConditions : Prop :=
  ∀ (others : List MicroOp → Line → Bool) (h tr : List MicroOp) (b : Byte) (ack : Bool),
    (∀ g m, drivenAfter g .scl = false → drivenAfter (g ++ [m]) .scl = false → others (g ++ [m]) .sda = others g .sda) →
    drivenAfter h .scl = true → tr ∈ [sendTrace b ack, receiveTrace b, ackTrace, nackTrace] →
    conditions others h tr = []

/-- R35, R73: the symbols of bytes and acknowledgments on a bus with no other driver, entered with the clock driven low: a sent
byte is its eight bits, most significant first, and then the released acknowledgment slot; a received byte is eight released
slots; `MasterAck()` is one bit 0 and `MasterNack()` one bit 1; and no other symbol. The wires are log 17's. -/
def Obligations.BitsOnTheWires : Prop :=
  ∀ (h : List MicroOp) (b : Byte) (ack : Bool), drivenAfter h .scl = true →
    symbols noOthers h (sendTrace b ack) = (bitsMsbFirst b ++ [true]).map .dataBit ∧
    symbols noOthers h (receiveTrace b) = List.replicate 8 (.dataBit true) ∧
    symbols noOthers h ackTrace = [.dataBit false] ∧ symbols noOthers h nackTrace = [.dataBit true]

/-- R73, R110, R111, R112: the symbols that `Start()` and `Stop()` make from each drive state at entry, on a bus with no other
driver, all of them: a start from the idle bus or from `(1, 0)` is one start condition; from `(1, 1)` a stop condition comes
first; a stop with the clock driven low is one stop condition; on the idle bus a start condition comes first; from `(0, 1)`, which
`LOW SDA` reaches on the idle bus, the release of the data line is a stop condition in both. The wires are log 17's. -/
def Obligations.SymbolsOfStartAndStop : Prop :=
  ∀ (h : List MicroOp) (v : Bool),
    (drivenAfter h .scl = false → drivenAfter h .sda = false →
      symbols noOthers h (startTrace v) = [.startCondition] ∧
      symbols noOthers h stopTrace = [.startCondition, .stopCondition]) ∧
    (drivenAfter h .scl = true → drivenAfter h .sda = false → symbols noOthers h (startTrace v) = [.startCondition]) ∧
    (drivenAfter h .scl = true → drivenAfter h .sda = true →
      symbols noOthers h (startTrace v) = [.stopCondition, .startCondition]) ∧
    (drivenAfter h .scl = true → symbols noOthers h stopTrace = [.stopCondition]) ∧
    (drivenAfter h .scl = false → drivenAfter h .sda = true →
      symbols noOthers h (startTrace v) = [.stopCondition, .startCondition] ∧
      symbols noOthers h stopTrace = [.stopCondition])

/-- R46, R68: the empty transaction, `START` then `STOP`, leaves both lines released, whether or not the bus was busy. -/
def Obligations.EmptyTransactionReleasesTheLines : Prop :=
  ∀ s : State, s.busy = false → ∃ v t, execAll [.start, .stop] s = .next t ∧
    completed s t (startTrace v ++ stopTrace) .ok ∧ (∀ l, t.oe l = false)

/-! ## The session and the reference host (R89, R107, R108) -/

/-- R89, R86, R80: the transitions of the logical session: those of R89; that a successful start-conversion leads to `Converting`,
from every session state, as `STARTCONV` or as `WRCMD CMD_START_CONV` with any payload; and that a failed command causes none.
The session as a function, its start from every state, and that a command that hangs (`t.busy = true`) causes no transition
either, are log 21's: R89 does not speak of a hang, and the last is the model's choice. -/
def Obligations.SessionTransitions : Prop :=
  (∀ (q : Session) (i : Instr) (t : State), t.busy = true ∨ t.err ≠ .ok → q.after i t = some q) ∧
  (∀ (t : State) (b : Byte), t.busy = false → t.err = .ok → t.rdata = some b →
    Session.idle.after .cfg1shot t = some .readyForConversion ∧
    (∀ q : Session, q.after .startconv t = some .converting ∧
      ∀ payload, q.after (.wrcmd t.params.cmdStartConv payload) t = some .converting) ∧
    Session.converting.after .rdstat t = some (if b.getLsbD 7 then .conversionDone else .converting) ∧
    Session.conversionDone.after .rdtemp t = some .valueAvailable)

/-- R107, R89: where the sensor acknowledges every byte, boot configures one-shot mode and starts a conversion, in that
order. -/
def Obligations.BootStartsAConversion : Prop :=
  ∀ s : State, s.busy = false → s.envNoHang →
    s.answers (startTrace false ++ sendTrace (addrW s.params) false ++ sendTrace s.params.cmdConfig false ++
        sendTrace s.params.oneShotPayload false ++ stopTrace ++
      (startTrace false ++ sendTrace (addrW s.params) false ++ sendTrace s.params.cmdStartConv false ++ stopTrace)) = true →
    ∃ u t, exec .cfg1shot s = .next u ∧ boot s = .next t ∧
      completed s t (startTrace false ++ sendTrace (addrW s.params) false ++ sendTrace s.params.cmdConfig false ++
        sendTrace s.params.oneShotPayload false ++ stopTrace ++
      (startTrace false ++ sendTrace (addrW s.params) false ++ sendTrace s.params.cmdStartConv false ++ stopTrace)) .ok ∧
      (Session.idle.after .cfg1shot u).bind (fun q => q.after .startconv t) = some .converting

/-- R108, R83, 95_test_vectors.md E7, E8, E9: a poll that finds the done-flag clear reads no temperature; one that finds it set
reads the temperature, renders its first byte and starts the next conversion; one whose status read fails, on any row of its
table and whatever `RDATA` held, reads no temperature, renders nothing and leaves `RDATA`; one whose temperature read fails renders
nothing and starts no conversion. -/
def Obligations.PollReadsTheTemperatureOnlyWhenDone : Prop :=
  ∀ (s : State) (b v w : Byte), s.busy = false → s.envNoHang →
    (doneFlag b = false → s.answers (rdregTrace s.params s.params.cmdConfig [b]) = true →
      ∃ t, pollAndUpdate s = .next (t, none) ∧ completed s t (rdregTrace s.params s.params.cmdConfig [b]) .ok) ∧
    (doneFlag b = true →
      s.answers (rdregTrace s.params s.params.cmdConfig [b] ++ rdregTrace s.params s.params.cmdReadTemp [v, w] ++
        (startTrace false ++ sendTrace (addrW s.params) false ++ sendTrace s.params.cmdStartConv false ++ stopTrace)) = true →
      ∃ t, pollAndUpdate s = .next (t, some v) ∧ t.rdata = some v ∧
        completed s t (rdregTrace s.params s.params.cmdConfig [b] ++ rdregTrace s.params s.params.cmdReadTemp [v, w] ++
          (startTrace false ++ sendTrace (addrW s.params) false ++ sendTrace s.params.cmdStartConv false ++ stopTrace)) .ok) ∧
    (∀ path ∈ rdregFailures s.params s.params.cmdConfig, s.answers path.1 = true →
      ∃ t, pollAndUpdate s = .next (t, none) ∧ t.rdata = s.rdata ∧ completed s t path.1 path.2) ∧
    (doneFlag b = true → ∀ path ∈ rdregFailures s.params s.params.cmdReadTemp,
      s.answers (rdregTrace s.params s.params.cmdConfig [b] ++ path.1) = true →
      ∃ t, pollAndUpdate s = .next (t, none) ∧ t.rdata = some b ∧
        completed s t (rdregTrace s.params s.params.cmdConfig [b] ++ path.1) path.2)

/-- R41, R33, R85 to R88: on wires that are the wired AND of all drivers, and where nothing hangs, a named command issued on the
idle bus, after a history after which the sensor is bound by log 2's reading of R41 (`EnvSlave`), completes with `OK`, and the
reads return the sensor's status byte, which carries its done-flag, and the first byte of its temperature. That reading (the three
codes of R31, the register sizes, when the done-flag is asked) is the model's choice where log 2 says so; the wires are log 17's. -/
def Obligations.NamedCommandsSucceedWithTheSensor : Prop :=
  ∀ (s : State) (bound : List MicroOp → Prop) (low : List MicroOp → Line → Bool) (bytes : List MicroOp → Byte → List Byte)
    (done : List MicroOp → Bool),
    s.busy = false → s.envNoHang → s.wiredAnd low → EnvSlave s.params bound low bytes done → idleAfter s.history →
    bound s.history →
    (∃ t, exec .cfg1shot s = .next t ∧ t.busy = false ∧ t.err = .ok) ∧
    (∃ t, exec .startconv s = .next t ∧ t.busy = false ∧ t.err = .ok) ∧
    (∃ t v, exec .rdstat s = .next t ∧ t.busy = false ∧ t.err = .ok ∧ bytes s.history s.params.cmdConfig = [v] ∧
      t.rdata = some v ∧ doneFlag v = done s.history) ∧
    (∃ t v w, exec .rdtemp s = .next t ∧ t.busy = false ∧ t.err = .ok ∧ bytes s.history s.params.cmdReadTemp = [v, w] ∧
      t.rdata = some v)
end

