-- ==== Sys2Proof/Laws/Encoding.lean ====
section
/-! SUPPORT. The fields of a word, taken apart and put together. -/

namespace Sys2Proof

@[simp] theorem fieldOp_wordOf (op a b : Byte) : fieldOp (wordOf op a b) = op := by
  simp only [fieldOp, wordOf]
  ext k hk
  rw [BitVec.getElem_extractLsb', BitVec.getLsbD_append, BitVec.getLsbD_append]
  simp [show ¬ 16 + k < 8 by omega, show ¬ 16 + k - 8 < 8 by omega, show 16 + k - 8 - 8 = k by omega,
    BitVec.getLsbD_eq_getElem, hk]
@[simp] theorem fieldA_wordOf (op a b : Byte) : fieldA (wordOf op a b) = a := by
  simp only [fieldA, wordOf]
  ext k hk
  rw [BitVec.getElem_extractLsb', BitVec.getLsbD_append, BitVec.getLsbD_append]
  simp [show ¬ 8 + k < 8 by omega, show 8 + k - 8 = k by omega, BitVec.getLsbD_eq_getElem, hk]
@[simp] theorem fieldB_wordOf (op a b : Byte) : fieldB (wordOf op a b) = b := by
  simp only [fieldB, wordOf]
  ext k hk
  rw [BitVec.getElem_extractLsb', BitVec.getLsbD_append]
  simp [BitVec.getLsbD_eq_getElem, hk]

/-- A word is its three fields. -/
theorem wordOf_fields (w : CmdWord) : wordOf (fieldOp w) (fieldA w) (fieldB w) = w := by
  simp only [fieldOp, fieldA, fieldB, wordOf]
  ext k hk
  simp only [BitVec.getElem_append, BitVec.getElem_extractLsb']
  split
  · simp [BitVec.getLsbD_eq_getElem, hk]
  · split
    · simp [BitVec.getLsbD_eq_getElem, hk, show 8 + (k - 8) = k by omega]
    · simp [BitVec.getLsbD_eq_getElem, hk, show 16 + (k - 8 - 8) = k by omega]

/-- Words are equal exactly when their fields are. -/
theorem wordOf_inj {a b c d e f : Byte} : wordOf a b c = wordOf d e f ↔ a = d ∧ b = e ∧ c = f := by
  constructor
  · intro h
    have h₁ := congrArg fieldOp h
    have h₂ := congrArg fieldA h
    have h₃ := congrArg fieldB h
    exact ⟨by simpa using h₁, by simpa using h₂, by simpa using h₃⟩
  · rintro ⟨rfl, rfl, rfl⟩
    rfl

/-- A mask acts field by field. -/
theorem wordOf_and (a b c d e f : Byte) : wordOf a b c &&& wordOf d e f = wordOf (a &&& d) (b &&& e) (c &&& f) := by
  apply BitVec.eq_of_getElem_eq
  intro k hk
  rw [BitVec.getElem_and]
  unfold wordOf
  rw [BitVec.getElem_append, BitVec.getElem_append, BitVec.getElem_append]
  split
  · simp
  · rw [BitVec.getElem_append, BitVec.getElem_append, BitVec.getElem_append]
    split <;> simp

@[simp] theorem bitByte_getLsbD_zero (v : Bool) : (bitByte v).getLsbD 0 = v := by cases v <;> rfl
@[simp] theorem bitByte_getElem_zero (v : Bool) : (bitByte v)[0] = v := by cases v <;> rfl
@[simp] theorem bitByte_high (v : Bool) : (bitByte v).extractLsb' 1 7 = 0#7 := by cases v <;> rfl

/-- A byte whose bits 7:1 are 0 is its bit 0. -/
theorem bitByte_of_high {b : Byte} (h : b.extractLsb' 1 7 = 0#7) : bitByte (b.getLsbD 0) = b := by
  revert b; decide

@[simp] theorem lineOfBit_bitOfLine (l : Line) : lineOfBit (bitOfLine l) = l := by cases l <;> rfl
@[simp] theorem bitOfLine_lineOfBit (v : Bool) : bitOfLine (lineOfBit v) = v := by cases v <;> rfl

/-! ## One lemma per format: the words it accepts -/

theorem decodeL_eq_ok {w : CmdWord} {mk : Line → Instr} {i : Instr} :
    decodeL w mk = .ok i ↔ ∃ l, fieldA w = bitByte (bitOfLine l) ∧ fieldB w = 0#8 ∧ i = mk l := by
  unfold decodeL
  constructor
  · intro h
    split at h
    · next hz => exact ⟨_, by rw [bitOfLine_lineOfBit, bitByte_of_high hz.1], hz.2, by simpa using h.symm⟩
    · contradiction
  · rintro ⟨l, ha, hb, rfl⟩
    simp [ha, hb]

theorem decodeN_eq_ok {w : CmdWord} {mk i : Instr} :
    decodeN w mk = .ok i ↔ fieldA w = 0#8 ∧ fieldB w = 0#8 ∧ i = mk := by
  unfold decodeN
  split
  · next hz => simp [hz, eq_comm]
  · next hz => simp only [reduceCtorEq, false_iff]; exact fun h => hz ⟨h.1, h.2.1⟩

theorem decodeB_eq_ok {w : CmdWord} {mk : Byte → Instr} {i : Instr} :
    decodeB w mk = .ok i ↔ fieldB w = 0#8 ∧ i = mk (fieldA w) := by
  unfold decodeB
  split
  · next hz => simp [hz, eq_comm]
  · next hz => simp only [reduceCtorEq, false_iff]; exact fun h => hz h.1

theorem decodeW_eq_ok {w : CmdWord} {mk : Byte → Byte → Instr} {i : Instr} :
    decodeW w mk = .ok i ↔ i = mk (fieldA w) (fieldB w) := by
  simp [decodeW, eq_comm]

theorem decodeR_eq_ok {w : CmdWord} {mk : Byte → Nat → Instr} {i : Instr} :
    decodeR w mk = .ok i ↔ ∃ v : Bool, fieldB w = bitByte v ∧ i = mk (fieldA w) (byteCountOfBit v) := by
  unfold decodeR
  constructor
  · intro h
    split at h
    · next hz => exact ⟨_, (bitByte_of_high hz).symm, by simpa using h.symm⟩
    · contradiction
  · rintro ⟨v, hb, rfl⟩
    simp [hb]

theorem ite_eq_ok {c : Prop} [Decidable c] {x y : Except DecodeReject Instr} {i : Instr}
    (h : (if c then x else y) = .ok i) : (c ∧ x = .ok i) ∨ y = .ok i := by
  split at h
  · next hc => exact .inl ⟨hc, h⟩
  · exact .inr h

/-- What a legal word holds: its fields, and the command they are. -/
theorem decode_cases {w : CmdWord} {i : Instr} (h : decode w = .ok i) :
    (∃ l, w = wordOf 0x01#8 (bitByte (bitOfLine l)) 0#8 ∧ i = .rel l) ∨
    (∃ l, w = wordOf 0x02#8 (bitByte (bitOfLine l)) 0#8 ∧ i = .low l) ∨
    (∃ l, w = wordOf 0x03#8 (bitByte (bitOfLine l)) 0#8 ∧ i = .smp l) ∨
    (w = wordOf 0x10#8 0#8 0#8 ∧ i = .start) ∨ (w = wordOf 0x11#8 0#8 0#8 ∧ i = .stop) ∨
    (∃ byte, w = wordOf 0x12#8 byte 0#8 ∧ i = .sendb byte) ∨
    (w = wordOf 0x13#8 0#8 0#8 ∧ i = .recvb) ∨ (w = wordOf 0x14#8 0#8 0#8 ∧ i = .mack) ∨
    (w = wordOf 0x15#8 0#8 0#8 ∧ i = .mnack) ∨
    (∃ code payload, w = wordOf 0x20#8 code payload ∧ i = .wrcmd code payload) ∨
    (∃ code v, w = wordOf 0x21#8 code (bitByte v) ∧ i = .rdreg code (byteCountOfBit v)) := by
  have hw := wordOf_fields w
  unfold decode at h
  rcases ite_eq_ok h with ⟨hc, h⟩ | h
  · obtain ⟨l, ha, hb, rfl⟩ := decodeL_eq_ok.1 h
    rw [hc, ha, hb] at hw
    exact .inl ⟨l, hw.symm, rfl⟩
  refine .inr ?_
  rcases ite_eq_ok h with ⟨hc, h⟩ | h
  · obtain ⟨l, ha, hb, rfl⟩ := decodeL_eq_ok.1 h
    rw [hc, ha, hb] at hw
    exact .inl ⟨l, hw.symm, rfl⟩
  refine .inr ?_
  rcases ite_eq_ok h with ⟨hc, h⟩ | h
  · obtain ⟨l, ha, hb, rfl⟩ := decodeL_eq_ok.1 h
    rw [hc, ha, hb] at hw
    exact .inl ⟨l, hw.symm, rfl⟩
  refine .inr ?_
  rcases ite_eq_ok h with ⟨hc, h⟩ | h
  · obtain ⟨ha, hb, rfl⟩ := decodeN_eq_ok.1 h
    rw [hc, ha, hb] at hw
    exact .inl ⟨hw.symm, rfl⟩
  refine .inr ?_
  rcases ite_eq_ok h with ⟨hc, h⟩ | h
  · obtain ⟨ha, hb, rfl⟩ := decodeN_eq_ok.1 h
    rw [hc, ha, hb] at hw
    exact .inl ⟨hw.symm, rfl⟩
  refine .inr ?_
  rcases ite_eq_ok h with ⟨hc, h⟩ | h
  · obtain ⟨hb, rfl⟩ := decodeB_eq_ok.1 h
    rw [hc, hb] at hw
    exact .inl ⟨_, hw.symm, rfl⟩
  refine .inr ?_
  rcases ite_eq_ok h with ⟨hc, h⟩ | h
  · obtain ⟨ha, hb, rfl⟩ := decodeN_eq_ok.1 h
    rw [hc, ha, hb] at hw
    exact .inl ⟨hw.symm, rfl⟩
  refine .inr ?_
  rcases ite_eq_ok h with ⟨hc, h⟩ | h
  · obtain ⟨ha, hb, rfl⟩ := decodeN_eq_ok.1 h
    rw [hc, ha, hb] at hw
    exact .inl ⟨hw.symm, rfl⟩
  refine .inr ?_
  rcases ite_eq_ok h with ⟨hc, h⟩ | h
  · obtain ⟨ha, hb, rfl⟩ := decodeN_eq_ok.1 h
    rw [hc, ha, hb] at hw
    exact .inl ⟨hw.symm, rfl⟩
  refine .inr ?_
  rcases ite_eq_ok h with ⟨hc, h⟩ | h
  · obtain rfl := decodeW_eq_ok.1 h
    rw [hc] at hw
    exact .inl ⟨_, _, hw.symm, rfl⟩
  refine .inr ?_
  rcases ite_eq_ok h with ⟨hc, h⟩ | h
  · obtain ⟨v, hb, rfl⟩ := decodeR_eq_ok.1 h
    rw [hc, hb] at hw
    exact ⟨_, _, hw.symm, rfl⟩
  · contradiction

/-- Expanding a pseudo-command gives one of the eleven. -/
@[simp] theorem expand_isCore (p : Params) (i : Instr) : (i.expand p).isCore = true := by cases i <;> rfl

/-- Expanding keeps well-formedness. -/
@[simp] theorem expand_wellFormed (p : Params) (i : Instr) : (i.expand p).wellFormed = i.wellFormed := by cases i <;> rfl

/-- A core command stands for itself. -/
theorem expand_of_isCore {p : Params} {i : Instr} (h : i.isCore = true) : i.expand p = i := by
  cases i <;> first | rfl | simp [Instr.isCore] at h

end Sys2Proof
end

