-- ==== Sys2Proof/Laws/State.lean ====
section
/-! SUPPORT. One lemma per field per update of the state, so that no proof unfolds a record update. -/

namespace Sys2Proof.Machine

variable (s : State) (l : Line) (m : MicroOp) (i : Instr) (r : Result) (d : Option Byte) (b v : Bool)

/-! ## `issue` -/

@[simp] theorem State.issue_oeScl : (s.issue i).oeScl = s.oeScl := rfl
@[simp] theorem State.issue_oeSda : (s.issue i).oeSda = s.oeSda := rfl
@[simp] theorem State.issue_busy : (s.issue i).busy = true := rfl
@[simp] theorem State.issue_err : (s.issue i).err = .ok := rfl
@[simp] theorem State.issue_sbit : (s.issue i).sbit = s.sbit := rfl
@[simp] theorem State.issue_rdata : (s.issue i).rdata = s.rdata := rfl
@[simp] theorem State.issue_ifc : (s.issue i).ifc = some i := rfl
@[simp] theorem State.issue_upc : (s.issue i).upc = 0 := rfl
@[simp] theorem State.issue_params : (s.issue i).params = s.params := rfl
@[simp] theorem State.issue_bus : (s.issue i).bus = s.bus := rfl
@[simp] theorem State.issue_history : (s.issue i).history = s.history := rfl
@[simp] theorem State.issue_resets : (s.issue i).resets = s.resets := rfl
@[simp] theorem State.issue_resetAsserted : (s.issue i).resetAsserted = s.resetAsserted := rfl
@[simp] theorem State.issue_pinReads : (s.issue i).pinReads = s.pinReads := rfl
@[simp] theorem State.issue_host : (s.issue i).host = s.host := rfl
@[simp] theorem State.issue_hostData : (s.issue i).hostData = s.hostData := rfl

/-! ## `complete` -/

@[simp] theorem State.complete_oeScl : (s.complete r d).oeScl = s.oeScl := rfl
@[simp] theorem State.complete_oeSda : (s.complete r d).oeSda = s.oeSda := rfl
@[simp] theorem State.complete_busy : (s.complete r d).busy = false := rfl
@[simp] theorem State.complete_err : (s.complete r d).err = r := rfl
@[simp] theorem State.complete_sbit : (s.complete r d).sbit = s.sbit := rfl
@[simp] theorem State.complete_rdata : (s.complete r d).rdata = d.or s.rdata := rfl
@[simp] theorem State.complete_ifc : (s.complete r d).ifc = none := rfl
@[simp] theorem State.complete_upc : (s.complete r d).upc = s.upc := rfl
@[simp] theorem State.complete_params : (s.complete r d).params = s.params := rfl
@[simp] theorem State.complete_bus : (s.complete r d).bus = s.bus := rfl
@[simp] theorem State.complete_history : (s.complete r d).history = s.history := rfl
@[simp] theorem State.complete_resets : (s.complete r d).resets = s.resets := rfl
@[simp] theorem State.complete_resetAsserted : (s.complete r d).resetAsserted = s.resetAsserted := rfl
@[simp] theorem State.complete_pinReads : (s.complete r d).pinReads = s.pinReads := rfl
@[simp] theorem State.complete_host : (s.complete r d).host = s.host := rfl
@[simp] theorem State.complete_hostData : (s.complete r d).hostData = s.hostData := rfl

/-! ## `setOe` -/

@[simp] theorem State.setOe_busy : (s.setOe l b).busy = s.busy := by cases l <;> rfl
@[simp] theorem State.setOe_err : (s.setOe l b).err = s.err := by cases l <;> rfl
@[simp] theorem State.setOe_sbit : (s.setOe l b).sbit = s.sbit := by cases l <;> rfl
@[simp] theorem State.setOe_rdata : (s.setOe l b).rdata = s.rdata := by cases l <;> rfl
@[simp] theorem State.setOe_ifc : (s.setOe l b).ifc = s.ifc := by cases l <;> rfl
@[simp] theorem State.setOe_upc : (s.setOe l b).upc = s.upc := by cases l <;> rfl
@[simp] theorem State.setOe_params : (s.setOe l b).params = s.params := by cases l <;> rfl
@[simp] theorem State.setOe_bus : (s.setOe l b).bus = s.bus := by cases l <;> rfl
@[simp] theorem State.setOe_history : (s.setOe l b).history = s.history := by cases l <;> rfl
@[simp] theorem State.setOe_resets : (s.setOe l b).resets = s.resets := by cases l <;> rfl
@[simp] theorem State.setOe_resetAsserted : (s.setOe l b).resetAsserted = s.resetAsserted := by cases l <;> rfl
@[simp] theorem State.setOe_pinReads : (s.setOe l b).pinReads = s.pinReads := by cases l <;> rfl
@[simp] theorem State.setOe_host : (s.setOe l b).host = s.host := by cases l <;> rfl
@[simp] theorem State.setOe_hostData : (s.setOe l b).hostData = s.hostData := by cases l <;> rfl
@[simp] theorem State.setOe_oe (l' : Line) : (s.setOe l b).oe l' = if l = l' then b else s.oe l' := by
  cases l <;> cases l' <;> rfl

/-! ## `record` -/

@[simp] theorem State.record_oeScl : (s.record m).oeScl = s.oeScl := rfl
@[simp] theorem State.record_oeSda : (s.record m).oeSda = s.oeSda := rfl
@[simp] theorem State.record_busy : (s.record m).busy = s.busy := rfl
@[simp] theorem State.record_err : (s.record m).err = s.err := rfl
@[simp] theorem State.record_sbit : (s.record m).sbit = s.sbit := rfl
@[simp] theorem State.record_rdata : (s.record m).rdata = s.rdata := rfl
@[simp] theorem State.record_ifc : (s.record m).ifc = s.ifc := rfl
@[simp] theorem State.record_upc : (s.record m).upc = s.upc + 1 := rfl
@[simp] theorem State.record_params : (s.record m).params = s.params := rfl
@[simp] theorem State.record_bus : (s.record m).bus = s.bus := rfl
@[simp] theorem State.record_history : (s.record m).history = s.history ++ [m] := rfl
@[simp] theorem State.record_resets : (s.record m).resets = s.resets := rfl
@[simp] theorem State.record_resetAsserted : (s.record m).resetAsserted = s.resetAsserted := rfl
@[simp] theorem State.record_pinReads : (s.record m).pinReads = s.pinReads := rfl
@[simp] theorem State.record_host : (s.record m).host = s.host := rfl
@[simp] theorem State.record_hostData : (s.record m).hostData = s.hostData := rfl
@[simp] theorem State.record_oe (l : Line) : (s.record m).oe l = s.oe l := by cases l <;> rfl

/-! ## `perform`: the three micro-operations at once -/

@[simp] theorem State.perform_busy : (s.perform m).busy = s.busy := by cases m <;> simp [State.perform, State.release, State.pullLow, State.sampled]
@[simp] theorem State.perform_err : (s.perform m).err = s.err := by cases m <;> simp [State.perform, State.release, State.pullLow, State.sampled]
@[simp] theorem State.perform_rdata : (s.perform m).rdata = s.rdata := by cases m <;> simp [State.perform, State.release, State.pullLow, State.sampled]
@[simp] theorem State.perform_ifc : (s.perform m).ifc = s.ifc := by cases m <;> simp [State.perform, State.release, State.pullLow, State.sampled]
@[simp] theorem State.perform_params : (s.perform m).params = s.params := by cases m <;> simp [State.perform, State.release, State.pullLow, State.sampled]
@[simp] theorem State.perform_bus : (s.perform m).bus = s.bus := by cases m <;> simp [State.perform, State.release, State.pullLow, State.sampled]
@[simp] theorem State.perform_resets : (s.perform m).resets = s.resets := by cases m <;> simp [State.perform, State.release, State.pullLow, State.sampled]
@[simp] theorem State.perform_resetAsserted : (s.perform m).resetAsserted = s.resetAsserted := by cases m <;> simp [State.perform, State.release, State.pullLow, State.sampled]
@[simp] theorem State.perform_pinReads : (s.perform m).pinReads = s.pinReads := by cases m <;> simp [State.perform, State.release, State.pullLow, State.sampled]
@[simp] theorem State.perform_host : (s.perform m).host = s.host := by cases m <;> simp [State.perform, State.release, State.pullLow, State.sampled]
@[simp] theorem State.perform_hostData : (s.perform m).hostData = s.hostData := by cases m <;> simp [State.perform, State.release, State.pullLow, State.sampled]
@[simp] theorem State.perform_history : (s.perform m).history = s.history ++ [m] := by
  cases m <;> simp [State.perform, State.release, State.pullLow, State.sampled]
@[simp] theorem State.perform_upc : (s.perform m).upc = s.upc + 1 := by
  cases m <;> simp [State.perform, State.release, State.pullLow, State.sampled]
@[simp] theorem State.perform_oe : (s.perform m).oe l = drivenFrom (s.oe l) [m] l := by
  cases m <;> simp [State.perform, State.release, State.pullLow, State.sampled, drivenFrom]
  cases l <;> rfl
@[simp] theorem State.perform_sbit : (s.perform m).sbit = lastSample s.sbit [m] := by
  cases m <;> simp [State.perform, State.release, State.pullLow, State.sampled, lastSample]

/-! ## `performAll` -/

variable (tr : List MicroOp)

@[simp] theorem State.performAll_nil : s.performAll [] = s := rfl
@[simp] theorem State.performAll_cons : s.performAll (m :: tr) = (s.perform m).performAll tr := rfl
theorem State.performAll_append (tr₂ : List MicroOp) :
    s.performAll (tr ++ tr₂) = (s.performAll tr).performAll tr₂ := by simp [State.performAll]

@[simp] theorem State.performAll_busy : (s.performAll tr).busy = s.busy := by
  induction tr generalizing s <;> simp [*]
@[simp] theorem State.performAll_err : (s.performAll tr).err = s.err := by
  induction tr generalizing s <;> simp [*]
@[simp] theorem State.performAll_rdata : (s.performAll tr).rdata = s.rdata := by
  induction tr generalizing s <;> simp [*]
@[simp] theorem State.performAll_ifc : (s.performAll tr).ifc = s.ifc := by
  induction tr generalizing s <;> simp [*]
@[simp] theorem State.performAll_params : (s.performAll tr).params = s.params := by
  induction tr generalizing s <;> simp [*]
@[simp] theorem State.performAll_bus : (s.performAll tr).bus = s.bus := by
  induction tr generalizing s <;> simp [*]
@[simp] theorem State.performAll_resets : (s.performAll tr).resets = s.resets := by
  induction tr generalizing s <;> simp [*]
@[simp] theorem State.performAll_resetAsserted : (s.performAll tr).resetAsserted = s.resetAsserted := by
  induction tr generalizing s <;> simp [*]
@[simp] theorem State.performAll_pinReads : (s.performAll tr).pinReads = s.pinReads := by
  induction tr generalizing s <;> simp [*]
@[simp] theorem State.performAll_host : (s.performAll tr).host = s.host := by
  induction tr generalizing s <;> simp [*]
@[simp] theorem State.performAll_hostData : (s.performAll tr).hostData = s.hostData := by
  induction tr generalizing s <;> simp [*]
@[simp] theorem State.performAll_history : (s.performAll tr).history = s.history ++ tr := by
  induction tr generalizing s <;> simp [*]
@[simp] theorem State.performAll_upc : (s.performAll tr).upc = s.upc + tr.length := by
  induction tr generalizing s <;> simp [*]; omega

theorem drivenFrom_cons (c : Bool) : drivenFrom c (m :: tr) l = drivenFrom (drivenFrom c [m] l) tr l := rfl
theorem lastSample_cons : lastSample v (m :: tr) = lastSample (lastSample v [m]) tr := rfl
@[simp] theorem State.performAll_oe : (s.performAll tr).oe l = drivenFrom (s.oe l) tr l := by
  induction tr generalizing s with
  | nil => rfl
  | cons m tr ih => rw [State.performAll_cons, ih, State.perform_oe, ← drivenFrom_cons]
@[simp] theorem State.performAll_sbit : (s.performAll tr).sbit = lastSample s.sbit tr := by
  induction tr generalizing s with
  | nil => rfl
  | cons m tr ih => rw [State.performAll_cons, ih, State.perform_sbit, ← lastSample_cons]

/-! ## The drive state of a line through the updates that leave it -/

@[simp] theorem State.issue_oe : (s.issue i).oe l = s.oe l := by cases l <;> rfl
@[simp] theorem State.complete_oe : (s.complete r d).oe l = s.oe l := by cases l <;> rfl

/-! ## Reset -/

@[simp] theorem assertReset_busy : (assertReset s).busy = false := rfl
@[simp] theorem assertReset_err : (assertReset s).err = .ok := rfl
@[simp] theorem assertReset_sbit : (assertReset s).sbit = false := rfl
@[simp] theorem assertReset_rdata : (assertReset s).rdata = none := rfl
@[simp] theorem assertReset_ifc : (assertReset s).ifc = none := rfl
@[simp] theorem assertReset_upc : (assertReset s).upc = 0 := rfl
@[simp] theorem assertReset_params : (assertReset s).params = s.params := rfl
@[simp] theorem assertReset_bus : (assertReset s).bus = s.bus := rfl
@[simp] theorem assertReset_history : (assertReset s).history = [] := rfl
@[simp] theorem assertReset_pinReads : (assertReset s).pinReads = s.pinReads := rfl
@[simp] theorem assertReset_host : (assertReset s).host = s.host := rfl
@[simp] theorem assertReset_hostData : (assertReset s).hostData = s.hostData := rfl
@[simp] theorem assertReset_resetAsserted : (assertReset s).resetAsserted = true := rfl
@[simp] theorem assertReset_oe : (assertReset s).oe l = false := by cases l <;> rfl

@[simp] theorem releaseReset_busy : (releaseReset s).busy = s.busy := rfl
@[simp] theorem releaseReset_err : (releaseReset s).err = s.err := rfl
@[simp] theorem releaseReset_sbit : (releaseReset s).sbit = s.sbit := rfl
@[simp] theorem releaseReset_rdata : (releaseReset s).rdata = s.rdata := rfl
@[simp] theorem releaseReset_ifc : (releaseReset s).ifc = s.ifc := rfl
@[simp] theorem releaseReset_upc : (releaseReset s).upc = s.upc := rfl
@[simp] theorem releaseReset_params : (releaseReset s).params = s.params := rfl
@[simp] theorem releaseReset_bus : (releaseReset s).bus = s.bus := rfl
@[simp] theorem releaseReset_history : (releaseReset s).history = s.history := rfl
@[simp] theorem releaseReset_resets : (releaseReset s).resets = s.resets := rfl
@[simp] theorem releaseReset_pinReads : (releaseReset s).pinReads = s.pinReads := rfl
@[simp] theorem releaseReset_host : (releaseReset s).host = s.host := rfl
@[simp] theorem releaseReset_hostData : (releaseReset s).hostData = s.hostData := rfl
@[simp] theorem releaseReset_resetAsserted : (releaseReset s).resetAsserted = false := rfl
@[simp] theorem releaseReset_oe : (releaseReset s).oe l = s.oe l := by cases l <;> rfl

/-- While reset is asserted a call, a write of `CMD` and a tick change nothing (R105, log 24). -/
theorem callCmd_of_asserted {s : State} (h : s.resetAsserted = true) (w : CmdWord) : callCmd w s = .next s := if_pos h
theorem writeCmd_of_asserted {s : State} (h : s.resetAsserted = true) (w : CmdWord) : writeCmd w s = .next s := if_pos h
theorem tickBlock_of_asserted {s : State} (h : s.resetAsserted = true) : tickBlock s = .next s := if_pos h

/-- With the reset input released a call of a legal word runs its command, and a tick is one of the command in flight. -/
theorem callCmd_of_decode {s : State} {w : CmdWord} {i : Instr} (h : s.resetAsserted = false) (hd : decode w = .ok i) :
    callCmd w s = exec i s := by simp [callCmd, h, hd]
theorem tickBlock_of_released {s : State} (h : s.resetAsserted = false) : tickBlock s = tickCommand s := by
  simp [tickBlock, h]

theorem assertReset_inResetState : (assertReset s).inResetState :=
  ⟨fun l => by cases l <;> rfl, rfl, rfl, rfl, rfl, rfl, rfl⟩

end Sys2Proof.Machine
end

