-- ==== Sys2Proof/Laws/Prog.lean ====
section
/-! SUPPORT. What running a micro-program can do, said once: it performs a trace that the environment's answers select, and
then it completes or hangs. -/

namespace Sys2Proof.Machine

/-! ## Traces and answers -/

theorem drivenFrom_append (d : Bool) (a b : List MicroOp) (l : Line) :
    drivenFrom d (a ++ b) l = drivenFrom (drivenFrom d a l) b l := by simp [drivenFrom]

theorem drivenAfter_append (a b : List MicroOp) (l : Line) :
    drivenAfter (a ++ b) l = drivenFrom (drivenAfter a l) b l := drivenFrom_append _ _ _ _

theorem lastSample_append (v : Bool) (a b : List MicroOp) :
    lastSample v (a ++ b) = lastSample (lastSample v a) b := by simp [lastSample]

theorem delayCount_append (a b : List MicroOp) : delayCount (a ++ b) = delayCount a + delayCount b := by
  simp [delayCount]

theorem sampleCount_append (a b : List MicroOp) : sampleCount (a ++ b) = sampleCount a + sampleCount b := by
  simp [sampleCount]

theorem answersAgree_append (e : Environment) (n : Nat) (h a b : List MicroOp) :
    answersAgree e n h (a ++ b) = (answersAgree e n h a && answersAgree e n (h ++ a) b) := by
  induction a generalizing h with
  | nil => simp [answersAgree]
  | cons m a ih => simp [answersAgree, ih, Bool.and_assoc]

/-! ## A device that counts from start conditions (log 2) -/

/-- A device that counts sees the drive states. -/
theorem startCount_driven (c : StartCount) (h : List MicroOp) :
    (h.foldl StartCount.next c).scl = drivenFrom c.scl h .scl ∧ (h.foldl StartCount.next c).sda = drivenFrom c.sda h .sda := by
  induction h generalizing c with
  | nil => exact ⟨rfl, rfl⟩
  | cons m h ih =>
    obtain ⟨h₁, h₂⟩ := ih (c.next m)
    refine ⟨h₁.trans ?_, h₂.trans ?_⟩ <;> rcases m with (_ | _) | (_ | _) | _ <;> try rfl
    all_goals simp only [StartCount.next, drivenFrom, List.foldl_cons]; split <;> rfl

/-- On an idle bus it remembers nothing but its count. -/
theorem startCount_of_idle {h : List MicroOp} (hi : idleAfter h) :
    ∃ n, h.foldl StartCount.next ⟨false, false, 0⟩ = ⟨false, false, n⟩ := by
  obtain ⟨h₁, h₂⟩ := startCount_driven ⟨false, false, 0⟩ h
  have h₁ := h₁.trans (hi .scl)
  have h₂ := h₂.trans (hi .sda)
  generalize h.foldl StartCount.next ⟨false, false, 0⟩ = c at *
  obtain ⟨_, _, n⟩ := c
  exact ⟨n, by simp_all⟩

/-! ## What is left of a program -/

@[simp] theorem Prog.after_nil (p : Prog) : p.after [] = some p := by cases p <;> rfl

@[simp] theorem Prog.after_release (ph : Phase) (l : Line) (next : Prog) (tr : List MicroOp) :
    (Prog.release ph l next).after (.release l :: tr) = next.after tr := by simp [Prog.after]

@[simp] theorem Prog.after_pullLow (ph : Phase) (l : Line) (next : Prog) (tr : List MicroOp) :
    (Prog.pullLow ph l next).after (.pullLow l :: tr) = next.after tr := by simp [Prog.after]

@[simp] theorem Prog.after_sample (ph : Phase) (l : Line) (next : Bool → Prog) (v : Bool) (tr : List MicroOp) :
    (Prog.sample ph l next).after (.sample l v :: tr) = (next v).after tr := by simp [Prog.after]

theorem Prog.after_append (p : Prog) (a b : List MicroOp) :
    p.after (a ++ b) = (p.after a).bind fun q => q.after b := by
  induction p generalizing a with
  | release ph l next ih =>
    cases a with
    | nil => simp
    | cons m a => simp only [List.cons_append, Prog.after]; split <;> simp [ih]
  | pullLow ph l next ih =>
    cases a with
    | nil => simp
    | cons m a => simp only [List.cons_append, Prog.after]; split <;> simp [ih]
  | sample ph l next ih =>
    cases a with
    | nil => simp
    | cons m a =>
      cases m <;> simp only [List.cons_append, Prog.after, Option.bind_none]
      split <;> simp [ih]
  | finish r d => cases a <;> simp [Prog.after]

/-! ## Running -/

/-- Everything running a program can do: it performs a trace of the program that the environment's answers select,
and then either it has come to its end and completes, or it hangs. -/
theorem Prog.run_cases (p : Prog) (s : State) :
    ∃ tr q, p.after tr = some q ∧ s.answers tr = true ∧
      ((∃ r d, q = .finish r d ∧ p.run s = (s.performAll tr).complete r d) ∨
       (q.unfinished = true ∧ (s.performAll tr).stallsIn q.phase = true ∧ p.run s = s.performAll tr)) := by
  induction p generalizing s with
  | release ph l next ih =>
    by_cases hs : s.stallsIn ph = true
    · exact ⟨[], .release ph l next, by simp, rfl, .inr ⟨rfl, hs, by simp [Prog.run, hs]⟩⟩
    · obtain ⟨tr, q, ha, he, hc⟩ := ih (s.release l)
      refine ⟨.release l :: tr, q, by simpa using ha, ?_, ?_⟩
      · simpa [State.answers, answersAgree, State.release] using he
      · simpa [Prog.run, hs, State.perform] using hc
  | pullLow ph l next ih =>
    by_cases hs : s.stallsIn ph = true
    · exact ⟨[], .pullLow ph l next, by simp, rfl, .inr ⟨rfl, hs, by simp [Prog.run, hs]⟩⟩
    · obtain ⟨tr, q, ha, he, hc⟩ := ih (s.pullLow l)
      refine ⟨.pullLow l :: tr, q, by simpa using ha, ?_, ?_⟩
      · simpa [State.answers, answersAgree, State.pullLow] using he
      · simpa [Prog.run, hs, State.perform] using hc
  | sample ph l next ih =>
    by_cases hs : s.stallsIn ph = true
    · exact ⟨[], .sample ph l next, by simp, rfl, .inr ⟨rfl, hs, by simp [Prog.run, hs]⟩⟩
    · obtain ⟨tr, q, ha, he, hc⟩ := ih (s.level l) (s.sampled l (s.level l))
      refine ⟨.sample l (s.level l) :: tr, q, by simpa using ha, ?_, ?_⟩
      · simpa [State.answers, answersAgree, State.sampled, State.level] using he
      · simpa [Prog.run, hs, State.perform] using hc
  | finish r d => exact ⟨[], .finish r d, by simp, rfl, .inl ⟨r, d, rfl, rfl⟩⟩

/-- On a bus where nothing hangs, a program whose trace the environment's answers select runs through that trace. -/
theorem Prog.run_of_after {p : Prog} {s : State} {tr : List MicroOp} {r : Result} {d : Option Byte}
    (hn : s.envNoHang) (ha : p.after tr = some (.finish r d)) (he : s.answers tr = true) :
    p.run s = (s.performAll tr).complete r d := by
  induction p generalizing s tr with
  | release ph l next ih =>
    have hs : s.stallsIn ph = false := by cases ph <;> simp [State.stallsIn, State.hangsHere, hn _]
    cases tr with
    | nil => simp at ha
    | cons m tr =>
      simp only [Prog.after] at ha
      split at ha <;> [skip; contradiction]
      subst m
      have := ih (s := s.release l) (by simpa [State.envNoHang, State.release] using hn) ha
        (by simpa [State.answers, answersAgree, State.release] using he)
      simpa [Prog.run, hs, State.perform] using this
  | pullLow ph l next ih =>
    have hs : s.stallsIn ph = false := by cases ph <;> simp [State.stallsIn, State.hangsHere, hn _]
    cases tr with
    | nil => simp at ha
    | cons m tr =>
      simp only [Prog.after] at ha
      split at ha <;> [skip; contradiction]
      subst m
      have := ih (s := s.pullLow l) (by simpa [State.envNoHang, State.pullLow] using hn) ha
        (by simpa [State.answers, answersAgree, State.pullLow] using he)
      simpa [Prog.run, hs, State.perform] using this
  | sample ph l next ih =>
    have hs : s.stallsIn ph = false := by cases ph <;> simp [State.stallsIn, State.hangsHere, hn _]
    cases tr with
    | nil => simp at ha
    | cons m tr =>
      cases m with
      | release l' => simp [Prog.after] at ha
      | pullLow l' => simp [Prog.after] at ha
      | sample l' v =>
        simp only [Prog.after] at ha
        split at ha <;> [skip; contradiction]
        subst l'
        have hv : s.level l = v ∧ answersAgree s.bus s.resets (s.history ++ [.sample l v]) tr = true := by
          simpa [State.answers, answersAgree, State.level] using he
        obtain ⟨hv, ht⟩ := hv
        have := ih v (s := s.sampled l v) (by simpa [State.envNoHang, State.sampled] using hn) ha
          (by simpa [State.answers, State.sampled] using ht)
        simpa [Prog.run, hs, State.perform, hv] using this
  | finish r' d' =>
    cases tr with
    | nil => simp at ha; simp [Prog.run, ha]
    | cons m tr => simp [Prog.after] at ha

end Sys2Proof.Machine
end

