-- ==== Sys2Proof/Laws/Procs.lean ====
section
/-! SUPPORT. One lemma per procedure of the engine: what is left after its trace, and what its trace does to the drive states
and `SBIT`. -/

namespace Sys2Proof.Machine

/-! ## Bytes on the wire -/

theorem shiftIn_getElem (acc : Byte) (bit : Bool) (k : Nat) (h : k < 8) :
    (shiftIn acc bit)[k] = if k = 0 then bit else acc[k - 1] := by
  unfold shiftIn
  rw [BitVec.getElem_append]
  rcases k with _ | k
  · simp
  · have : k < 7 := by omega
    simp [BitVec.getLsbD_eq_getElem, show k < 8 by omega]

/-- Receiving the bits of a byte in the order in which they are sent gives the byte (R35). -/
theorem byteOfBits_bitsMsbFirst (b : Byte) : byteOfBits (bitsMsbFirst b) = b := by
  apply BitVec.eq_of_getElem_eq
  intro k hk
  have : k = 0 ∨ k = 1 ∨ k = 2 ∨ k = 3 ∨ k = 4 ∨ k = 5 ∨ k = 6 ∨ k = 7 := by omega
  rcases this with rfl | rfl | rfl | rfl | rfl | rfl | rfl | rfl <;>
    simp [byteOfBits, bitsMsbFirst, shiftIn_getElem]

/-- Every list of eight bits is the bits of the byte it spells. -/
theorem bitsMsbFirst_byteOfBits (a b c d e f g h : Bool) :
    bitsMsbFirst (byteOfBits [a, b, c, d, e, f, g, h]) = [a, b, c, d, e, f, g, h] := by
  simp [byteOfBits, bitsMsbFirst, shiftIn_getElem]

/-! ## What is left after a procedure's trace -/

@[simp] theorem after_startProc (k : Result → Prog) (v : Bool) (tr : List MicroOp) :
    (startProc k).after (startTrace v ++ tr) = (k (startResult v)).after tr := by
  simp [startProc, startTrace]

@[simp] theorem after_stopProc (k : Prog) (tr : List MicroOp) :
    (stopProc k).after (stopTrace ++ tr) = k.after tr := by
  simp [stopProc, stopTrace]

theorem after_sendBits (bits : List Bool) (k : Prog) (tr : List MicroOp) :
    (sendBits bits k).after (bits.flatMap bitTrace ++ tr) = k.after tr := by
  induction bits with
  | nil => simp [sendBits]
  | cons bit bits ih => cases bit <;> simpa [sendBits, driveBit, clockPulse, bitTrace] using ih

@[simp] theorem after_sendByteProc (b : Byte) (k : Result → Prog) (ack : Bool) (tr : List MicroOp) :
    (sendByteProc b k).after (sendTrace b ack ++ tr) = (k (ackResult ack)).after tr := by
  rw [sendTrace, List.append_assoc, sendByteProc, after_sendBits]
  simp [clockPulseSample]

theorem after_receiveBits (bits : List Bool) (acc : Byte) (k : Byte → Prog) (tr : List MicroOp) :
    (receiveBits bits.length acc k).after (bits.flatMap sampledBitTrace ++ tr) = (k (bits.foldl shiftIn acc)).after tr := by
  induction bits generalizing acc with
  | nil => simp [receiveBits]
  | cons bit bits ih => simpa [receiveBits, clockPulseSample, sampledBitTrace] using ih (shiftIn acc bit)

@[simp] theorem after_receiveByteProc (b : Byte) (k : Byte → Prog) (tr : List MicroOp) :
    (receiveByteProc k).after (receiveTrace b ++ tr) = (k b).after tr := by
  have h := after_receiveBits (bitsMsbFirst b) 0#8 k tr
  rw [show (bitsMsbFirst b).foldl shiftIn 0#8 = b from byteOfBits_bitsMsbFirst b] at h
  rw [receiveByteProc, receiveTrace, List.cons_append, Prog.after_release]
  exact h

@[simp] theorem after_masterAckProc (ph : Phase) (k : Prog) (tr : List MicroOp) :
    (masterAckProc ph k).after (ackTrace ++ tr) = k.after tr := by
  simp [masterAckProc, ackTrace, clockPulse]

@[simp] theorem after_masterNackProc (ph : Phase) (k : Prog) (tr : List MicroOp) :
    (masterNackProc ph k).after (nackTrace ++ tr) = k.after tr := by
  simp [masterNackProc, nackTrace, clockPulse]

@[simp] theorem after_abort (e : Result) : (abort e).after stopTrace = some (.finish e none) := by
  simpa [abort, raise] using after_stopProc (raise e) []

theorem after_receiveBytes (vs : List Byte) (k : List Byte → Prog) (tr : List MicroOp) :
    (receiveBytes vs.length k).after (receivedTrace vs ++ tr) = (k vs).after tr := by
  induction vs generalizing k with
  | nil => simp [receiveBytes, receivedTrace]
  | cons v vs ih =>
    cases vs with
    | nil => simp [receiveBytes, receivedTrace]
    | cons w vs => simpa [receiveBytes, receivedTrace] using ih fun us => k (v :: us)

/-! ## What the traces do -/

@[simp] theorem drivenFrom_startTrace (d v : Bool) (l : Line) : drivenFrom d (startTrace v) l = true := by
  cases l <;> rfl

@[simp] theorem drivenFrom_stopTrace (d : Bool) (l : Line) : drivenFrom d stopTrace l = false := by
  cases l <;> rfl

@[simp] theorem drivenFrom_sendTrace (d : Bool) (b : Byte) (ack : Bool) (l : Line) :
    drivenFrom d (sendTrace b ack) l = decide (l = .scl) := by
  rw [sendTrace, drivenFrom_append]; cases l <;> rfl

theorem drivenFrom_receive_scl (d : Bool) (bits : List Bool) :
    drivenFrom d (bits.flatMap sampledBitTrace) .scl = (d || !bits.isEmpty) := by
  induction bits generalizing d with
  | nil => simp [drivenFrom]
  | cons bit bits ih =>
    rw [List.flatMap_cons, drivenFrom_append, show drivenFrom d (sampledBitTrace bit) .scl = true from rfl, ih]
    simp

theorem drivenFrom_receive_sda (d : Bool) (bits : List Bool) :
    drivenFrom d (bits.flatMap sampledBitTrace) .sda = d := by
  induction bits generalizing d with
  | nil => simp [drivenFrom]
  | cons bit bits ih =>
    rw [List.flatMap_cons, drivenFrom_append, show drivenFrom d (sampledBitTrace bit) .sda = d from rfl, ih]

@[simp] theorem drivenFrom_receiveTrace (d : Bool) (b : Byte) (l : Line) :
    drivenFrom d (receiveTrace b) l = decide (l = .scl) := by
  rw [receiveTrace, drivenFrom_cons]
  cases l
  · rw [drivenFrom_receive_scl]; simp [bitsMsbFirst]
  · rw [drivenFrom_receive_sda]; rfl

@[simp] theorem drivenFrom_ackTrace (d : Bool) (l : Line) : drivenFrom d ackTrace l = true := by
  cases l <;> rfl

@[simp] theorem drivenFrom_nackTrace (d : Bool) (l : Line) : drivenFrom d nackTrace l = decide (l = .scl) := by
  cases l <;> rfl

@[simp] theorem lastSample_startTrace (x v : Bool) : lastSample x (startTrace v) = v := rfl
@[simp] theorem lastSample_stopTrace (x : Bool) : lastSample x stopTrace = x := rfl
@[simp] theorem lastSample_ackTrace (x : Bool) : lastSample x ackTrace = x := rfl
@[simp] theorem lastSample_nackTrace (x : Bool) : lastSample x nackTrace = x := rfl

@[simp] theorem lastSample_sendTrace (x : Bool) (b : Byte) (ack : Bool) : lastSample x (sendTrace b ack) = ack := by
  rw [sendTrace, lastSample_append]; rfl

@[simp] theorem lastSample_receiveTrace (x : Bool) (b : Byte) : lastSample x (receiveTrace b) = b.getLsbD 0 := rfl

@[simp] theorem length_sendTrace (b : Byte) (ack : Bool) : (sendTrace b ack).length = 28 := rfl
@[simp] theorem length_receiveTrace (b : Byte) : (receiveTrace b).length = 25 := rfl

theorem delayCount_bits (bits : List Bool) : delayCount (bits.flatMap bitTrace) = 3 * bits.length := by
  induction bits with
  | nil => rfl
  | cons bit bits ih => rw [List.flatMap_cons, delayCount_append, ih]; cases bit <;> simp [bitTrace, delayCount] <;> omega

@[simp] theorem delayCount_sendTrace (b : Byte) (ack : Bool) : delayCount (sendTrace b ack) = 27 := by
  rw [sendTrace, delayCount_append, delayCount_bits]; rfl

@[simp] theorem delayCount_receiveTrace (b : Byte) : delayCount (receiveTrace b) = 17 := rfl

end Sys2Proof.Machine
end

