-- ==== Sys2Proof/Laws/Exec.lean ====
section
/-! SUPPORT. What executing an instruction can do, said once. -/

namespace Sys2Proof.Machine

/-- A pseudo-command has the micro-program of the command it stands for. -/
@[simp] theorem program_expand (p : Params) (i : Instr) : program p (i.expand p) = program p i := by cases i <;> rfl

/-- Every well-formed instruction runs its micro-program as the command in flight. -/
theorem exec_eq_runCommand {i : Instr} (hw : i.wellFormed = true) (s : State) :
    exec i s = runCommand (i.expand s.params) (program s.params i) s := by
  cases i <;> first | rfl | simp [exec, execRdreg, hw, program, Instr.expand]

/-- A pseudo-command does what the command it stands for does. -/
theorem exec_expand (i : Instr) (s : State) : exec i s = exec (i.expand s.params) s := by
  cases i with
  | rdstat => simp [exec, execRdreg, Instr.wellFormed, Instr.expand, execRdstat, progRdstat]
  | rdtemp => simp [exec, execRdreg, Instr.wellFormed, Instr.expand, execRdtemp, progRdtemp]
  | _ => rfl

/-- While a command is in flight every instruction is refused (R20). -/
theorem exec_of_busy {s : State} (h : s.busy = true) (i : Instr) : exec i s = .refused .commandWhileBusy := by
  cases i <;> simp [exec, execRel, execLow, execSmp, execStart, execStop, execSendb, execRecvb, execMack, execMnack,
    execWrcmd, execRdreg, execCfg1shot, execStartconv, execRdstat, execRdtemp, runCommand, h]

/-- An ill-formed instruction is refused. -/
theorem exec_of_illFormed {s : State} (h : s.busy = false) {i : Instr} (hw : i.wellFormed = false) :
    exec i s = .refused .readCountNotEncodable := by
  cases i with
  | rdreg code n => rw [exec, execRdreg, if_pos ⟨h, hw⟩]
  | _ => exact absurd hw (by simp [Instr.wellFormed])

/-- An instruction that answers a next state was not refused, and ran its micro-program. -/
theorem exec_next {i : Instr} {s t : State} (h : exec i s = .next t) :
    s.busy = false ∧ i.wellFormed = true ∧ t = (program s.params i).run (s.issue (i.expand s.params)) := by
  cases hb : s.busy with
  | true => rw [exec_of_busy hb] at h; contradiction
  | false =>
    cases hw : i.wellFormed with
    | false => rw [exec_of_illFormed hb hw] at h; contradiction
    | true =>
      rw [exec_eq_runCommand hw, runCommand, hb] at h
      exact ⟨rfl, rfl, by simpa using h.symm⟩

/-- The state in which a command issued in `s` has performed the trace `tr`. -/
def State.midway (s : State) (i : Instr) (tr : List MicroOp) : State := (s.issue (i.expand s.params)).performAll tr

theorem answers_issue (s : State) (i : Instr) (tr : List MicroOp) : (s.issue i).answers tr = s.answers tr := rfl

/-- Everything an instruction that answers a next state can do: it performs a trace of its micro-program that the
environment's answers select, and then it has completed or it hangs. -/
theorem exec_cases {i : Instr} {s t : State} (h : exec i s = .next t) :
    ∃ tr q, (program s.params i).after tr = some q ∧ s.answers tr = true ∧
      ((∃ r d, q = .finish r d ∧ t = (s.midway i tr).complete r d) ∨
       (q.unfinished = true ∧ (s.midway i tr).stallsIn q.phase = true ∧ t = s.midway i tr)) := by
  obtain ⟨-, -, rfl⟩ := exec_next h
  exact Prog.run_cases (program s.params i) (s.issue (i.expand s.params))

/-- On a bus where nothing hangs, a well-formed instruction runs through the trace that the environment's answers select. -/
theorem exec_of_after {i : Instr} {s : State} {tr : List MicroOp} {r : Result} {d : Option Byte} (hb : s.busy = false)
    (hw : i.wellFormed = true) (hn : s.envNoHang) (ha : (program s.params i).after tr = some (.finish r d))
    (he : s.answers tr = true) : exec i s = .next ((s.midway i tr).complete r d) := by
  rw [exec_eq_runCommand hw, runCommand, hb, State.midway]
  simp only [Bool.false_eq_true, if_false, Host.Outcome.next.injEq]
  exact Prog.run_of_after hn ha he

/-- What completing after a trace means in the terms claims use. -/
theorem completed_midway (s : State) (i : Instr) (tr : List MicroOp) (r : Result) (d : Option Byte) :
    completed s ((s.midway i tr).complete r d) tr r := by
  simp [completed, sameOutside, State.midway]

end Sys2Proof.Machine
end

