-- ==== Sys2Proof/Laws/Answers.lean ====
section
/-! SUPPORT. The environment's answers select a trace of each procedure, and one only; counts of the procedures' traces. -/

namespace Sys2Proof.Machine

theorem answersAgree_of_no_samples (e : Environment) (n : Nat) (h : List MicroOp) {tr : List MicroOp}
    (hs : sampleCount tr = 0) : answersAgree e n h tr = true := by
  induction tr generalizing h with
  | nil => rfl
  | cons m tr ih => cases m <;> simp_all [sampleCount, answersAgree]

@[simp] theorem sampleCount_bits (bits : List Bool) : sampleCount (bits.flatMap bitTrace) = 0 := by
  induction bits with
  | nil => rfl
  | cons bit bits ih => rw [List.flatMap_cons, sampleCount_append, ih]; cases bit <;> rfl

@[simp] theorem answersAgree_stopTrace (e : Environment) (n : Nat) (h : List MicroOp) :
    answersAgree e n h stopTrace = true := answersAgree_of_no_samples e n h rfl
@[simp] theorem answersAgree_ackTrace (e : Environment) (n : Nat) (h : List MicroOp) :
    answersAgree e n h ackTrace = true := answersAgree_of_no_samples e n h rfl
@[simp] theorem answersAgree_nackTrace (e : Environment) (n : Nat) (h : List MicroOp) :
    answersAgree e n h nackTrace = true := answersAgree_of_no_samples e n h rfl

/-- The answer to `Start()`'s sample (R67). -/
theorem answersAgree_startTrace (e : Environment) (n : Nat) (h : List MicroOp) (v : Bool) :
    answersAgree e n h (startTrace v) = true ↔
      e.level n (h ++ [.release .scl, .release .sda, .pullLow .sda, .pullLow .scl]) .scl = v := by
  simp [answersAgree, startTrace]

/-- The answer to `SendByte`'s sample (R69). -/
theorem answersAgree_sendTrace (e : Environment) (n : Nat) (h : List MicroOp) (b : Byte) (ack : Bool) :
    answersAgree e n h (sendTrace b ack) = true ↔ e.level n (h ++ sendPrefix b) .sda = ack := by
  rw [sendTrace, answersAgree_append, answersAgree_of_no_samples e n h (sampleCount_bits _)]
  simp [answersAgree, sendPrefix]

theorem exists_startTrace (e : Environment) (n : Nat) (h : List MicroOp) : ∃ v, answersAgree e n h (startTrace v) = true :=
  ⟨_, (answersAgree_startTrace e n h _).2 rfl⟩

theorem exists_sendTrace (e : Environment) (n : Nat) (h : List MicroOp) (b : Byte) :
    ∃ ack, answersAgree e n h (sendTrace b ack) = true :=
  ⟨_, (answersAgree_sendTrace e n h b _).2 rfl⟩

theorem exists_bits (e : Environment) (n k : Nat) (h : List MicroOp) :
    ∃ bits : List Bool, bits.length = k ∧ answersAgree e n h (bits.flatMap sampledBitTrace) = true := by
  induction k generalizing h with
  | zero => exact ⟨[], rfl, rfl⟩
  | succ k ih =>
    obtain ⟨bits, hl, ha⟩ := ih (h ++ sampledBitTrace (e.level n (h ++ [.release .scl]) .sda))
    refine ⟨e.level n (h ++ [.release .scl]) .sda :: bits, by simp [hl], ?_⟩
    rw [List.flatMap_cons, answersAgree_append, ha]
    simp [sampledBitTrace, answersAgree]

/-- Whatever the environment answers, the eight samples of a received byte spell some byte (R70). -/
theorem exists_receiveTrace (e : Environment) (n : Nat) (h : List MicroOp) :
    ∃ b, answersAgree e n h (receiveTrace b) = true := by
  obtain ⟨bits, hl, ha⟩ := exists_bits e n 8 (h ++ [.release .sda])
  match bits, hl with
  | [a, b, c, d, x, f, g, i], _ =>
    refine ⟨byteOfBits [a, b, c, d, x, f, g, i], ?_⟩
    rw [receiveTrace, bitsMsbFirst_byteOfBits]
    simpa [answersAgree] using ha

/-- One data bit is one clock pulse. -/
theorem pulseCount_bit (bit : Bool) (tr : List MicroOp) : pulseCount (bitTrace bit ++ tr) = pulseCount tr + 1 := by
  cases bit <;> rfl

theorem pulseCount_bits (bits : List Bool) (tr : List MicroOp) :
    pulseCount (bits.flatMap bitTrace ++ tr) = bits.length + pulseCount tr := by
  induction bits with
  | nil => simp
  | cons bit bits ih =>
    rw [List.flatMap_cons, List.append_assoc, pulseCount_bit, ih, List.length_cons]
    omega

@[simp] theorem sampleCount_sendTrace (b : Byte) (ack : Bool) : sampleCount (sendTrace b ack) = 1 := by
  rw [sendTrace, sampleCount_append, sampleCount_bits]; rfl
@[simp] theorem pulseCount_sendTrace (b : Byte) (ack : Bool) : pulseCount (sendTrace b ack) = 9 := by
  rw [sendTrace, pulseCount_bits]; rfl
@[simp] theorem sampleCount_receiveTrace (b : Byte) : sampleCount (receiveTrace b) = 8 := rfl
@[simp] theorem pulseCount_receiveTrace (b : Byte) : pulseCount (receiveTrace b) = 8 := rfl

end Sys2Proof.Machine
end

