-- ==== Sys2Proof/Laws/Inversion.lean ====
section
/-! SUPPORT. A completed trace taken apart, procedure by procedure: a program that has come to its end performed each of its
procedures whole. And how long a trace can be. -/

namespace Sys2Proof.Machine

variable {tr : List MicroOp} {r : Result} {d : Option Byte}

/-! ## Inversion -/

theorem after_release_iff {ph : Phase} {l : Line} {k : Prog} :
    (Prog.release ph l k).after tr = some (.finish r d) ↔
      ∃ rest, tr = .release l :: rest ∧ k.after rest = some (.finish r d) := by
  cases tr with
  | nil => simp
  | cons m rest => by_cases hm : m = .release l <;> simp [Prog.after, hm]

theorem after_pullLow_iff {ph : Phase} {l : Line} {k : Prog} :
    (Prog.pullLow ph l k).after tr = some (.finish r d) ↔
      ∃ rest, tr = .pullLow l :: rest ∧ k.after rest = some (.finish r d) := by
  cases tr with
  | nil => simp
  | cons m rest => by_cases hm : m = .pullLow l <;> simp [Prog.after, hm]

theorem after_sample_iff {ph : Phase} {l : Line} {k : Bool → Prog} :
    (Prog.sample ph l k).after tr = some (.finish r d) ↔
      ∃ v rest, tr = .sample l v :: rest ∧ (k v).after rest = some (.finish r d) := by
  cases tr with
  | nil => simp
  | cons m rest =>
    cases m with
    | sample l' v => by_cases hl : l' = l <;> simp [Prog.after, hl]
    | release l' => simp [Prog.after]
    | pullLow l' => simp [Prog.after]

theorem after_finish_iff {r' : Result} {d' : Option Byte} :
    (Prog.finish r' d').after tr = some (.finish r d) ↔ tr = [] ∧ r' = r ∧ d' = d := by
  cases tr <;> simp [Prog.after]

theorem after_startProc_finish {k : Result → Prog} (h : (startProc k).after tr = some (.finish r d)) :
    ∃ v rest, tr = startTrace v ++ rest ∧ (k (startResult v)).after rest = some (.finish r d) := by
  simp only [startProc, after_release_iff, after_pullLow_iff, after_sample_iff] at h
  obtain ⟨_, rfl, _, rfl, _, rfl, _, rfl, v, rest, rfl, h'⟩ := h
  exact ⟨v, rest, rfl, h'⟩

theorem after_stopProc_finish {k : Prog} (h : (stopProc k).after tr = some (.finish r d)) :
    ∃ rest, tr = stopTrace ++ rest ∧ k.after rest = some (.finish r d) := by
  simp only [stopProc, after_release_iff, after_pullLow_iff] at h
  obtain ⟨_, rfl, _, rfl, rest, rfl, h'⟩ := h
  exact ⟨rest, rfl, h'⟩

theorem after_masterAckProc_finish {ph : Phase} {k : Prog} (h : (masterAckProc ph k).after tr = some (.finish r d)) :
    ∃ rest, tr = ackTrace ++ rest ∧ k.after rest = some (.finish r d) := by
  simp only [masterAckProc, clockPulse, after_release_iff, after_pullLow_iff] at h
  obtain ⟨_, rfl, _, rfl, rest, rfl, h'⟩ := h
  exact ⟨rest, rfl, h'⟩

theorem after_masterNackProc_finish {ph : Phase} {k : Prog} (h : (masterNackProc ph k).after tr = some (.finish r d)) :
    ∃ rest, tr = nackTrace ++ rest ∧ k.after rest = some (.finish r d) := by
  simp only [masterNackProc, clockPulse, after_release_iff, after_pullLow_iff] at h
  obtain ⟨_, rfl, _, rfl, rest, rfl, h'⟩ := h
  exact ⟨rest, rfl, h'⟩

theorem after_sendBits_finish {bits : List Bool} {k : Prog} (h : (sendBits bits k).after tr = some (.finish r d)) :
    ∃ rest, tr = bits.flatMap bitTrace ++ rest ∧ k.after rest = some (.finish r d) := by
  induction bits generalizing tr with
  | nil => exact ⟨tr, rfl, h⟩
  | cons bit bits ih =>
    cases bit <;>
      simp only [sendBits, driveBit, clockPulse, if_true, Bool.false_eq_true, if_false, after_release_iff,
        after_pullLow_iff] at h <;>
      obtain ⟨_, rfl, _, rfl, _, rfl, h'⟩ := h <;>
      obtain ⟨rest, rfl, h''⟩ := ih h' <;>
      exact ⟨rest, rfl, h''⟩

theorem after_sendByteProc_finish {b : Byte} {k : Result → Prog} (h : (sendByteProc b k).after tr = some (.finish r d)) :
    ∃ ack rest, tr = sendTrace b ack ++ rest ∧ (k (ackResult ack)).after rest = some (.finish r d) := by
  obtain ⟨_, rfl, h'⟩ := after_sendBits_finish h
  simp only [clockPulseSample, after_release_iff, after_pullLow_iff, after_sample_iff] at h'
  obtain ⟨_, rfl, _, rfl, ack, _, rfl, rest, rfl, h''⟩ := h'
  exact ⟨ack, rest, by simp [sendTrace], h''⟩

theorem after_receiveBits_finish {n : Nat} {acc : Byte} {k : Byte → Prog}
    (h : (receiveBits n acc k).after tr = some (.finish r d)) :
    ∃ (bits : List Bool) (rest : List MicroOp), bits.length = n ∧ tr = bits.flatMap sampledBitTrace ++ rest ∧
      (k (bits.foldl shiftIn acc)).after rest = some (.finish r d) := by
  induction n generalizing tr acc with
  | zero => exact ⟨[], tr, rfl, rfl, h⟩
  | succ n ih =>
    simp only [receiveBits, clockPulseSample, after_release_iff, after_pullLow_iff, after_sample_iff] at h
    obtain ⟨_, rfl, bit, _, rfl, _, rfl, h'⟩ := h
    obtain ⟨bits, rest, hl, rfl, h''⟩ := ih h'
    exact ⟨bit :: bits, rest, by simp [hl], rfl, h''⟩

theorem after_receiveByteProc_finish {k : Byte → Prog} (h : (receiveByteProc k).after tr = some (.finish r d)) :
    ∃ b rest, tr = receiveTrace b ++ rest ∧ (k b).after rest = some (.finish r d) := by
  simp only [receiveByteProc, after_release_iff] at h
  obtain ⟨_, rfl, h'⟩ := h
  obtain ⟨bits, rest, hl, rfl, h''⟩ := after_receiveBits_finish h'
  match bits, hl with
  | [a, b, c, e, x, f, g, i], _ =>
    refine ⟨byteOfBits [a, b, c, e, x, f, g, i], rest, ?_, h''⟩
    rw [receiveTrace, bitsMsbFirst_byteOfBits]
    rfl

theorem after_receiveBytes_finish {n : Nat} {k : List Byte → Prog} (h : (receiveBytes n k).after tr = some (.finish r d)) :
    ∃ vs rest, vs.length = n ∧ tr = receivedTrace vs ++ rest ∧ (k vs).after rest = some (.finish r d) := by
  induction n generalizing tr k with
  | zero => exact ⟨[], tr, rfl, rfl, h⟩
  | succ n ih =>
    obtain ⟨v, _, rfl, h'⟩ := after_receiveByteProc_finish h
    cases n with
    | zero =>
      obtain ⟨rest, rfl, h''⟩ := after_masterNackProc_finish h'
      exact ⟨[v], rest, rfl, by simp [receivedTrace], h''⟩
    | succ n =>
      obtain ⟨_, rfl, h''⟩ := after_masterAckProc_finish h'
      obtain ⟨vs, rest, hl, rfl, h₃⟩ := ih h''
      match vs, hl, h₃ with
      | w :: vs, hl, h₃ => exact ⟨v :: w :: vs, rest, by simpa using hl, by simp [receivedTrace], h₃⟩

theorem after_abort_finish {e : Result} (h : (abort e).after tr = some (.finish r d)) :
    tr = stopTrace ∧ r = e ∧ d = none := by
  obtain ⟨_, rfl, h'⟩ := after_stopProc_finish h
  obtain ⟨rfl, rfl, rfl⟩ := after_finish_iff.1 h'
  simp

/-! ## Length -/

/-- The most micro-operations a micro-program can perform. -/
def Prog.maxOps : Prog → Nat
  | .release _ _ next => next.maxOps + 1
  | .pullLow _ _ next => next.maxOps + 1
  | .sample _ _ next => max (next false).maxOps (next true).maxOps + 1
  | .finish _ _ => 0

theorem Prog.unfinished_iff (p : Prog) : p.unfinished = true ↔ 0 < p.maxOps := by
  cases p <;> simp [Prog.unfinished, Prog.maxOps]

/-- A trace and what is left after it are together no longer than the longest trace. -/
theorem Prog.length_add_maxOps_le {p q : Prog} {tr : List MicroOp} (h : p.after tr = some q) :
    tr.length + q.maxOps ≤ p.maxOps := by
  induction p generalizing tr with
  | release ph l next ih =>
    cases tr with
    | nil => simp at h; simp [← h]
    | cons m tr =>
      simp only [Prog.after] at h
      split at h <;> [skip; contradiction]
      have := ih h
      simp only [List.length_cons, Prog.maxOps]
      omega
  | pullLow ph l next ih =>
    cases tr with
    | nil => simp at h; simp [← h]
    | cons m tr =>
      simp only [Prog.after] at h
      split at h <;> [skip; contradiction]
      have := ih h
      simp only [List.length_cons, Prog.maxOps]
      omega
  | sample ph l next ih =>
    cases tr with
    | nil => simp at h; simp [← h]
    | cons m tr =>
      cases m with
      | sample l' v =>
        simp only [Prog.after] at h
        split at h <;> [skip; contradiction]
        have := ih v h
        simp only [List.length_cons, Prog.maxOps]
        cases v <;> omega
      | release l' => simp [Prog.after] at h
      | pullLow l' => simp [Prog.after] at h
  | finish r d =>
    cases tr with
    | nil => simp at h; simp [← h]
    | cons m tr => simp [Prog.after] at h

theorem maxOps_startProc_le {k : Result → Prog} {n : Nat} (h : ∀ r, (k r).maxOps ≤ n) : (startProc k).maxOps ≤ n + 5 := by
  have h₁ := h (startResult true)
  have h₂ := h (startResult false)
  simp only [startProc, Prog.maxOps]
  omega

theorem maxOps_stopProc (k : Prog) : (stopProc k).maxOps = k.maxOps + 3 := rfl
theorem maxOps_masterAckProc (ph : Phase) (k : Prog) : (masterAckProc ph k).maxOps = k.maxOps + 3 := rfl
theorem maxOps_masterNackProc (ph : Phase) (k : Prog) : (masterNackProc ph k).maxOps = k.maxOps + 3 := rfl
@[simp] theorem maxOps_abort (e : Result) : (abort e).maxOps = 3 := rfl

theorem maxOps_sendBits (bits : List Bool) (k : Prog) : (sendBits bits k).maxOps = k.maxOps + 3 * bits.length := by
  induction bits with
  | nil => rfl
  | cons bit bits ih => cases bit <;> simp [sendBits, driveBit, clockPulse, Prog.maxOps, ih] <;> omega

theorem maxOps_sendByteProc_le {b : Byte} {k : Result → Prog} {n : Nat} (h : ∀ r, (k r).maxOps ≤ n) :
    (sendByteProc b k).maxOps ≤ n + 28 := by
  have h₁ := h (ackResult true)
  have h₂ := h (ackResult false)
  simp only [sendByteProc, maxOps_sendBits, clockPulseSample, Prog.maxOps, bitsMsbFirst, List.length_cons, List.length_nil]
  omega

theorem maxOps_receiveBits_le {m : Nat} {acc : Byte} {k : Byte → Prog} {n : Nat} (h : ∀ b, (k b).maxOps ≤ n) :
    (receiveBits m acc k).maxOps ≤ n + 3 * m := by
  induction m generalizing acc with
  | zero => exact h acc
  | succ m ih =>
    have h₁ := ih (acc := shiftIn acc true)
    have h₂ := ih (acc := shiftIn acc false)
    simp only [receiveBits, clockPulseSample, Prog.maxOps]
    omega

theorem maxOps_receiveByteProc_le {k : Byte → Prog} {n : Nat} (h : ∀ b, (k b).maxOps ≤ n) :
    (receiveByteProc k).maxOps ≤ n + 25 := by
  have := maxOps_receiveBits_le (m := 8) (acc := 0#8) h
  simp only [receiveByteProc, Prog.maxOps]
  omega

theorem maxOps_receiveBytes_le {m : Nat} {k : List Byte → Prog} {n : Nat} (h : ∀ vs, (k vs).maxOps ≤ n) :
    (receiveBytes m k).maxOps ≤ n + 28 * m := by
  induction m generalizing k with
  | zero => exact h []
  | succ m ih =>
    have := maxOps_receiveByteProc_le (n := n + 28 * m + 3) (k := fun v =>
      if m = 0 then masterNackProc .byteTransfer (receiveBytes m fun vs => k (v :: vs))
      else masterAckProc .byteTransfer (receiveBytes m fun vs => k (v :: vs))) (by
        intro v
        have := ih (k := fun vs => k (v :: vs)) (fun vs => h _)
        split <;> simp only [maxOps_masterNackProc, maxOps_masterAckProc] <;> omega)
    simp only [receiveBytes]
    omega

theorem maxOps_orAbort_le {x e : Result} {k : Prog} {n : Nat} (hn : 3 ≤ n) (h : k.maxOps ≤ n) :
    (orAbort x e k).maxOps ≤ n := by
  unfold orAbort
  split
  · exact h
  · simpa using hn

theorem maxOps_orRaise (x : Result) (n : Nat) : (orRaise x finishOk).maxOps ≤ n := by
  unfold orRaise
  split <;> exact Nat.zero_le n

theorem maxOps_progWrcmd_le (p : Params) (code payload : Byte) : (progWrcmd p code payload).maxOps ≤ 92 := by
  have ht : (writeTail p code payload).maxOps ≤ 31 := by
    unfold writeTail
    split
    · exact maxOps_sendByteProc_le (n := 3) fun r => maxOps_orAbort_le (Nat.le_refl 3) (Nat.le_refl 3)
    · exact (show 3 ≤ 31 by omega)
  have h₃ : ∀ r, (orAbort r .noAck (writeTail p code payload)).maxOps ≤ 31 := fun r =>
    maxOps_orAbort_le (by omega) ht
  have h₂ : ∀ r, (orAbort r .addrNack (sendByteProc code fun r => orAbort r .noAck (writeTail p code payload))).maxOps ≤ 59 :=
    fun r => maxOps_orAbort_le (by omega) (maxOps_sendByteProc_le h₃)
  exact maxOps_startProc_le (n := 87) fun r => maxOps_orAbort_le (by omega) (maxOps_sendByteProc_le h₂)

theorem maxOps_progRdreg_le (p : Params) (code : Byte) (n : Nat) : (progRdreg p code n).maxOps ≤ 97 + 28 * n := by
  have h₆ : (receiveBytes n fun vs => stopProc (.finish .ok vs.head?)).maxOps ≤ 3 + 28 * n :=
    maxOps_receiveBytes_le fun vs => Nat.le_refl 3
  have h₅ : ∀ r, (orAbort r .addrNack (receiveBytes n fun vs => stopProc (.finish .ok vs.head?))).maxOps ≤ 3 + 28 * n :=
    fun r => maxOps_orAbort_le (by omega) h₆
  have h₄ : ∀ r, (orAbort r .busBusy (sendByteProc (addrR p) fun r => orAbort r .addrNack
      (receiveBytes n fun vs => stopProc (.finish .ok vs.head?)))).maxOps ≤ 3 + 28 * n + 28 :=
    fun r => maxOps_orAbort_le (by omega) (maxOps_sendByteProc_le h₅)
  have h₃ : ∀ r, (orAbort r .noAck (startProc fun r => orAbort r .busBusy (sendByteProc (addrR p) fun r => orAbort r .addrNack
      (receiveBytes n fun vs => stopProc (.finish .ok vs.head?))))).maxOps ≤ 3 + 28 * n + 28 + 5 :=
    fun r => maxOps_orAbort_le (by omega) (maxOps_startProc_le h₄)
  have h₂ : ∀ r, (orAbort r .addrNack (sendByteProc code fun r => orAbort r .noAck (startProc fun r => orAbort r .busBusy
      (sendByteProc (addrR p) fun r => orAbort r .addrNack
      (receiveBytes n fun vs => stopProc (.finish .ok vs.head?)))))).maxOps ≤ 3 + 28 * n + 28 + 5 + 28 :=
    fun r => maxOps_orAbort_le (by omega) (maxOps_sendByteProc_le h₃)
  have := maxOps_startProc_le (n := 3 + 28 * n + 28 + 5 + 28 + 28) fun r =>
    maxOps_orAbort_le (x := r) (e := .busBusy) (by omega) (maxOps_sendByteProc_le (b := addrW p) h₂)
  unfold progRdreg
  omega

/-- No command performs more than 153 micro-operations (R124). -/
theorem maxOps_program_le (p : Params) {i : Instr} (hw : i.wellFormed = true) : (program p i).maxOps ≤ 153 := by
  cases i with
  | rel l => exact (show 1 ≤ 153 by omega)
  | low l => exact (show 1 ≤ 153 by omega)
  | smp l => exact (show 1 ≤ 153 by omega)
  | start => exact (maxOps_startProc_le (n := 0) fun r => maxOps_orRaise r 0).trans (by omega)
  | stop => exact (show 3 ≤ 153 by omega)
  | sendb b => exact (maxOps_sendByteProc_le (n := 0) fun r => maxOps_orRaise r 0).trans (by omega)
  | recvb =>
    exact (maxOps_receiveByteProc_le (n := 0) (k := fun v => .finish .ok (some v)) fun _ => Nat.le_refl 0).trans
      (by omega)
  | mack => exact (show 3 ≤ 153 by omega)
  | mnack => exact (show 3 ≤ 153 by omega)
  | wrcmd code payload => exact (maxOps_progWrcmd_le p code payload).trans (by omega)
  | rdreg code n =>
    have : n = 1 ∨ n = 2 := by simpa [Instr.wellFormed] using hw
    exact (maxOps_progRdreg_le p code n).trans (by omega)
  | cfg1shot => exact (maxOps_progWrcmd_le p _ _).trans (by omega)
  | startconv => exact (maxOps_progWrcmd_le p _ _).trans (by omega)
  | rdstat => exact (maxOps_progRdreg_le p _ 1).trans (by omega)
  | rdtemp => exact (maxOps_progRdreg_le p _ 2).trans (by omega)

/-- Every command has something to do. -/
theorem program_unfinished (p : Params) (i : Instr) : (program p i).unfinished = true := by
  cases i with
  | sendb b =>
    rw [Prog.unfinished_iff, program, progSendb, sendByteProc, maxOps_sendBits]
    exact Nat.lt_of_lt_of_le (show 0 < 24 by omega) (Nat.le_add_left _ _)
  | _ => rfl

end Sys2Proof.Machine
end

