-- ==== Sys2Proof/Laws/Sequencer.lean ====
section
/-! SUPPORT. The sequencer's commands, said once: a completed trace of `WRCMD` or `RDREG` is a path of its table. -/

namespace Sys2Proof.Machine

variable {p : Params} {tr : List MicroOp} {r : Result} {d : Option Byte}

@[simp] theorem orAbort_startResult_true (e : Result) (k : Prog) : orAbort (startResult true) e k = abort e := rfl
@[simp] theorem orAbort_startResult_false (e : Result) (k : Prog) : orAbort (startResult false) e k = k := rfl
@[simp] theorem orAbort_ackResult_true (e : Result) (k : Prog) : orAbort (ackResult true) e k = abort e := rfl
@[simp] theorem orAbort_ackResult_false (e : Result) (k : Prog) : orAbort (ackResult false) e k = k := rfl
@[simp] theorem orRaise_startResult (v : Bool) : orRaise (startResult v) finishOk = .finish (startResult v) none := by
  cases v <;> rfl
@[simp] theorem orRaise_ackResult (v : Bool) : orRaise (ackResult v) finishOk = .finish (ackResult v) none := by
  cases v <;> rfl

/-- A start that may be abandoned: either the clock sampled 1 and the transaction was aborted, or it goes on (R79, R83). -/
theorem startProc_orAbort_finish {e : Result} {k : Prog}
    (h : (startProc fun x => orAbort x e k).after tr = some (.finish r d)) :
    (tr = startTrace true ++ stopTrace ∧ r = e ∧ d = none) ∨
    ∃ rest, tr = startTrace false ++ rest ∧ k.after rest = some (.finish r d) := by
  obtain ⟨v, rest, rfl, h'⟩ := after_startProc_finish h
  cases v with
  | true =>
    obtain ⟨rfl, rfl, rfl⟩ := after_abort_finish h'
    exact .inl ⟨rfl, rfl, rfl⟩
  | false => exact .inr ⟨rest, rfl, h'⟩

/-- A sent byte that may be refused: either it was not acknowledged and the transaction was aborted, or it goes on
(R79, R83). -/
theorem sendByteProc_orAbort_finish {b : Byte} {e : Result} {k : Prog}
    (h : (sendByteProc b fun x => orAbort x e k).after tr = some (.finish r d)) :
    (tr = sendTrace b true ++ stopTrace ∧ r = e ∧ d = none) ∨
    ∃ rest, tr = sendTrace b false ++ rest ∧ k.after rest = some (.finish r d) := by
  obtain ⟨v, rest, rfl, h'⟩ := after_sendByteProc_finish h
  cases v with
  | true =>
    obtain ⟨rfl, rfl, rfl⟩ := after_abort_finish h'
    exact .inl ⟨rfl, rfl, rfl⟩
  | false => exact .inr ⟨rest, rfl, h'⟩

theorem stopProc_finish_finish {r' : Result} {d' : Option Byte}
    (h : (stopProc (.finish r' d')).after tr = some (.finish r d)) : tr = stopTrace ∧ r = r' ∧ d = d' := by
  obtain ⟨rest, rfl, h'⟩ := after_stopProc_finish h
  obtain ⟨rfl, rfl, rfl⟩ := after_finish_iff.1 h'
  simp

/-- Every completed trace of `WRCMD` is a path of its table (R79, R80), and it writes no byte. -/
theorem progWrcmd_finish {code payload : Byte} (h : (progWrcmd p code payload).after tr = some (.finish r d)) :
    (tr, r) ∈ wrcmdPaths p code payload ∧ d = none := by
  rcases startProc_orAbort_finish h with ⟨rfl, rfl, rfl⟩ | ⟨_, rfl, h₁⟩
  · exact ⟨List.mem_cons_self, rfl⟩
  rcases sendByteProc_orAbort_finish h₁ with ⟨rfl, rfl, rfl⟩ | ⟨_, rfl, h₂⟩
  · exact ⟨by simp [wrcmdPaths], rfl⟩
  rcases sendByteProc_orAbort_finish h₂ with ⟨rfl, rfl, rfl⟩ | ⟨_, rfl, h₃⟩
  · exact ⟨by simp [wrcmdPaths], rfl⟩
  by_cases hc : code = p.cmdConfig
  · rw [writeTail, if_pos (by simpa [sendsPayload] using hc)] at h₃
    rcases sendByteProc_orAbort_finish h₃ with ⟨rfl, rfl, rfl⟩ | ⟨_, rfl, h₄⟩
    · exact ⟨by simp [wrcmdPaths, hc], rfl⟩
    · obtain ⟨rfl, rfl, rfl⟩ := stopProc_finish_finish h₄
      exact ⟨by simp [wrcmdPaths, hc], rfl⟩
  · rw [writeTail, if_neg (by simpa [sendsPayload] using hc)] at h₃
    obtain ⟨rfl, rfl, rfl⟩ := stopProc_finish_finish h₃
    exact ⟨by simp [wrcmdPaths, hc], rfl⟩

/-- Every completed trace of `RDREG` is a failing path of its table, which writes no byte, or a successful read of as many bytes
as were asked for, of which the first is written (R82, R83, R84). -/
theorem progRdreg_finish {code : Byte} {n : Nat} (h : (progRdreg p code n).after tr = some (.finish r d)) :
    ((tr, r) ∈ rdregFailures p code ∧ d = none) ∨
    ∃ vs, vs.length = n ∧ tr = rdregTrace p code vs ∧ r = .ok ∧ d = vs.head? := by
  rcases startProc_orAbort_finish h with ⟨rfl, rfl, rfl⟩ | ⟨_, rfl, h₁⟩
  · exact .inl ⟨List.mem_cons_self, rfl⟩
  rcases sendByteProc_orAbort_finish h₁ with ⟨rfl, rfl, rfl⟩ | ⟨_, rfl, h₂⟩
  · exact .inl ⟨by simp [rdregFailures], rfl⟩
  rcases sendByteProc_orAbort_finish h₂ with ⟨rfl, rfl, rfl⟩ | ⟨_, rfl, h₃⟩
  · exact .inl ⟨by simp [rdregFailures], rfl⟩
  rcases startProc_orAbort_finish h₃ with ⟨rfl, rfl, rfl⟩ | ⟨_, rfl, h₄⟩
  · exact .inl ⟨by simp [rdregFailures], rfl⟩
  rcases sendByteProc_orAbort_finish h₄ with ⟨rfl, rfl, rfl⟩ | ⟨_, rfl, h₅⟩
  · exact .inl ⟨by simp [rdregFailures], rfl⟩
  obtain ⟨vs, _, hl, rfl, h₆⟩ := after_receiveBytes_finish h₅
  obtain ⟨rfl, rfl, rfl⟩ := stopProc_finish_finish h₆
  exact .inr ⟨vs, hl, by simp [rdregTrace, rdregAddressed], rfl, rfl⟩

/-! ## What the paths leave -/

theorem drivenFrom_receivedTrace {vs : List Byte} (h : vs ≠ []) (c : Bool) (l : Line) :
    drivenFrom c (receivedTrace vs) l = decide (l = .scl) := by
  induction vs generalizing c with
  | nil => contradiction
  | cons v vs ih =>
    cases vs with
    | nil => simp [receivedTrace, drivenFrom_append]
    | cons w vs => rw [receivedTrace, drivenFrom_append, ih (by simp)]

theorem lastSample_receivedTrace (x : Bool) (v : Byte) (vs : List Byte) :
    lastSample x (receivedTrace (v :: vs)) = ((v :: vs).getLast (by simp)).getLsbD 0 := by
  induction vs generalizing v x with
  | nil => simp only [receivedTrace, lastSample_append, lastSample_receiveTrace, lastSample_nackTrace, List.getLast_singleton]
  | cons w vs ih => rw [receivedTrace, lastSample_append, ih]; simp

/-- Every path of the sequencer ends with the stop condition. -/
theorem wrcmdPaths_stop {code payload : Byte} (h : (tr, r) ∈ wrcmdPaths p code payload) : ∃ front, tr = front ++ stopTrace := by
  simp only [wrcmdPaths, List.cons_append, List.nil_append, List.mem_cons, Prod.mk.injEq] at h
  rcases h with ⟨rfl, -⟩ | ⟨rfl, -⟩ | ⟨rfl, -⟩ | h
  · exact ⟨_, rfl⟩
  · exact ⟨_, rfl⟩
  · exact ⟨_, rfl⟩
  split at h
  · simp only [List.mem_cons, Prod.mk.injEq, List.not_mem_nil, or_false] at h
    rcases h with ⟨rfl, -⟩ | ⟨rfl, -⟩ <;> exact ⟨_, rfl⟩
  · simp only [List.mem_cons, Prod.mk.injEq, List.not_mem_nil, or_false] at h
    obtain ⟨rfl, -⟩ := h
    exact ⟨_, rfl⟩

theorem rdregFailures_stop {code : Byte} (h : (tr, r) ∈ rdregFailures p code) : ∃ front, tr = front ++ stopTrace := by
  simp only [rdregFailures, List.mem_cons, Prod.mk.injEq, List.not_mem_nil, or_false] at h
  rcases h with ⟨rfl, -⟩ | ⟨rfl, -⟩ | ⟨rfl, -⟩ | ⟨rfl, -⟩ | ⟨rfl, -⟩ <;> exact ⟨_, rfl⟩

end Sys2Proof.Machine
end

