-- ==== Sys2Proof/Laws/Completion.lean ====
section
/-! SUPPORT. What a completed trace of each command is and leaves, said once for all commands. -/

namespace Sys2Proof.Machine

variable {p : Params} {tr : List MicroOp} {r : Result} {d : Option Byte}

/-- On a bus where nothing hangs, every micro-program runs to its end. -/
theorem Prog.run_completes (p : Prog) {s : State} (hn : s.envNoHang) :
    ∃ tr r d, p.after tr = some (.finish r d) ∧ s.answers tr = true ∧ p.run s = (s.performAll tr).complete r d := by
  obtain ⟨tr, q, ha, he, h⟩ := p.run_cases s
  rcases h with ⟨r, d, rfl, hr⟩ | ⟨-, hs, -⟩
  · exact ⟨tr, r, d, ha, he, hr⟩
  · cases hq : q.phase <;> simp [hq, State.stallsIn, State.hangsHere, hn _] at hs

/-- What `WRCMD` leaves (R79, R95). -/
theorem progWrcmd_leaves {code payload : Byte} (h : (progWrcmd p code payload).after tr = some (.finish r d)) :
    r ∈ [Result.ok, .busBusy, .addrNack, .noAck] ∧ (∀ c l, drivenFrom c tr l = false) ∧ d = none ∧
    (r ≠ .ok → ∀ x, lastSample x tr = true) := by
  obtain ⟨hm, rfl⟩ := progWrcmd_finish h
  obtain ⟨f, hf⟩ := wrcmdPaths_stop hm
  refine ⟨?_, fun c l => by rw [hf]; simp [drivenFrom_append], rfl, ?_⟩
  all_goals
    simp only [wrcmdPaths, List.cons_append, List.nil_append, List.mem_cons, Prod.mk.injEq] at hm
    rcases hm with ⟨rfl, rfl⟩ | ⟨rfl, rfl⟩ | ⟨rfl, rfl⟩ | hm
    · simp [lastSample_append]
    · simp [lastSample_append]
    · simp [lastSample_append]
    split at hm
    · simp only [List.mem_cons, Prod.mk.injEq, List.not_mem_nil, or_false] at hm
      rcases hm with ⟨rfl, rfl⟩ | ⟨rfl, rfl⟩ <;> simp [lastSample_append]
    · simp only [List.mem_cons, Prod.mk.injEq, List.not_mem_nil, or_false] at hm
      rcases hm with ⟨rfl, rfl⟩ ; simp

/-- What `RDREG` leaves (R83, R84, R95). -/
theorem progRdreg_leaves {code : Byte} {n : Nat} (h : (progRdreg p code n).after tr = some (.finish r d)) :
    r ∈ [Result.ok, .busBusy, .addrNack, .noAck] ∧ (∀ c l, drivenFrom c tr l = false) ∧
    (r ≠ .ok → d = none ∧ ∀ x, lastSample x tr = true) ∧ (0 < n → r = .ok → d.isSome = true) := by
  rcases progRdreg_finish h with ⟨hm, rfl⟩ | ⟨vs, hl, rfl, rfl, rfl⟩
  · obtain ⟨f, hf⟩ := rdregFailures_stop hm
    refine ⟨?_, fun c l => by rw [hf]; simp [drivenFrom_append], ?_, ?_⟩
    all_goals
      simp only [rdregFailures, List.mem_cons, Prod.mk.injEq, List.not_mem_nil, or_false] at hm
      rcases hm with ⟨rfl, rfl⟩ | ⟨rfl, rfl⟩ | ⟨rfl, rfl⟩ | ⟨rfl, rfl⟩ | ⟨rfl, rfl⟩ <;> simp [lastSample_append]
  · refine ⟨by simp, fun c l => by simp [rdregTrace, drivenFrom_append], by simp, ?_⟩
    intro h0 _; cases vs <;> simp_all

/-- What a completed command leaves, by the columns of the access matrix (R27): its result, the drive states, `SBIT` and the
byte for `RDATA`. -/
theorem program_leaves {i : Instr} (h : (program p i).after tr = some (.finish r d)) :
    r ∈ i.results ∧ (∀ (c : Line → Bool) l, drivenFrom (c l) tr l = (i.endOe l).getD (c l)) ∧
    (i.writesSbit = false → ∀ x, lastSample x tr = x) ∧ (i.writesRdata = false → d = none) ∧
    (r ≠ .ok → d = none ∧ ∀ x, lastSample x tr = true) ∧
    (i.wellFormed = true → i.writesRdata = true → r = .ok → d.isSome = true) := by
  cases i with
  | rel l =>
    simp only [program, progRel, finishOk, after_release_iff, after_finish_iff] at h
    obtain ⟨_, rfl, rfl, rfl, rfl⟩ := h
    refine ⟨by simp [Instr.results], ?_, by simp [lastSample], by simp, by simp, by simp [Instr.writesRdata]⟩
    intro c l'; cases l <;> cases l' <;> simp [drivenFrom, Instr.endOe]
  | low l =>
    simp only [program, progLow, finishOk, after_pullLow_iff, after_finish_iff] at h
    obtain ⟨_, rfl, rfl, rfl, rfl⟩ := h
    refine ⟨by simp [Instr.results], ?_, by simp [lastSample], by simp, by simp, by simp [Instr.writesRdata]⟩
    intro c l'; cases l <;> cases l' <;> simp [drivenFrom, Instr.endOe]
  | smp l =>
    simp only [program, progSmp, finishOk, after_sample_iff, after_finish_iff] at h
    obtain ⟨_, _, rfl, rfl, rfl, rfl⟩ := h
    exact ⟨by simp [Instr.results], by simp [drivenFrom, Instr.endOe], by simp [Instr.writesSbit], by simp,
      by simp, by simp [Instr.writesRdata]⟩
  | start =>
    rw [program, progStart] at h
    obtain ⟨v, rest, rfl, h'⟩ := after_startProc_finish h
    rw [orRaise_startResult, after_finish_iff] at h'
    obtain ⟨rfl, rfl, rfl⟩ := h'
    refine ⟨by cases v <;> simp [startResult, Instr.results], by simp [Instr.endOe], by simp [Instr.writesSbit],
      by simp, ?_, by simp [Instr.writesRdata]⟩
    cases v <;> simp [startResult]
  | stop =>
    rw [program, progStop] at h
    rw [finishOk] at h
    obtain ⟨rfl, rfl, rfl⟩ := stopProc_finish_finish h
    exact ⟨by simp [Instr.results], by simp [Instr.endOe], by simp, by simp, by simp, by simp [Instr.writesRdata]⟩
  | sendb b =>
    rw [program, progSendb] at h
    obtain ⟨v, rest, rfl, h'⟩ := after_sendByteProc_finish h
    rw [orRaise_ackResult, after_finish_iff] at h'
    obtain ⟨rfl, rfl, rfl⟩ := h'
    refine ⟨by cases v <;> simp [ackResult, Instr.results], by simp [Instr.endOe], by simp [Instr.writesSbit],
      by simp, ?_, by simp [Instr.writesRdata]⟩
    cases v <;> simp [ackResult]
  | recvb =>
    rw [program, progRecvb] at h
    obtain ⟨v, rest, rfl, h'⟩ := after_receiveByteProc_finish h
    obtain ⟨rfl, rfl, rfl⟩ := after_finish_iff.1 (by simpa [finishOk] using h')
    exact ⟨by simp [Instr.results], by simp [Instr.endOe], by simp [Instr.writesSbit],
      by simp [Instr.writesRdata], by simp, by simp⟩
  | mack =>
    rw [program, progMack] at h
    obtain ⟨rest, rfl, h'⟩ := after_masterAckProc_finish h
    obtain ⟨rfl, rfl, rfl⟩ := after_finish_iff.1 (by simpa [finishOk] using h')
    exact ⟨by simp [Instr.results], by simp [Instr.endOe], by simp, by simp, by simp, by simp [Instr.writesRdata]⟩
  | mnack =>
    rw [program, progMnack] at h
    obtain ⟨rest, rfl, h'⟩ := after_masterNackProc_finish h
    obtain ⟨rfl, rfl, rfl⟩ := after_finish_iff.1 (by simpa [finishOk] using h')
    exact ⟨by simp [Instr.results], by simp [Instr.endOe], by simp, by simp, by simp, by simp [Instr.writesRdata]⟩
  | wrcmd code payload =>
    obtain ⟨h1, h2, h3, h4⟩ := progWrcmd_leaves h
    exact ⟨by simpa [Instr.results] using h1, fun c l => by simp [h2, Instr.endOe], by simp [Instr.writesSbit],
      by simp [h3], fun hr => ⟨h3, h4 hr⟩, by simp [Instr.writesRdata]⟩
  | cfg1shot =>
    obtain ⟨h1, h2, h3, h4⟩ := progWrcmd_leaves h
    exact ⟨by simpa [Instr.results] using h1, fun c l => by simp [h2, Instr.endOe], by simp [Instr.writesSbit],
      by simp [h3], fun hr => ⟨h3, h4 hr⟩, by simp [Instr.writesRdata]⟩
  | startconv =>
    obtain ⟨h1, h2, h3, h4⟩ := progWrcmd_leaves h
    exact ⟨by simpa [Instr.results] using h1, fun c l => by simp [h2, Instr.endOe], by simp [Instr.writesSbit],
      by simp [h3], fun hr => ⟨h3, h4 hr⟩, by simp [Instr.writesRdata]⟩
  | rdreg code n =>
    obtain ⟨h1, h2, h3, h4⟩ := progRdreg_leaves h
    exact ⟨by simpa [Instr.results] using h1, fun c l => by simp [h2, Instr.endOe], by simp [Instr.writesSbit],
      by simp [Instr.writesRdata], fun hr => h3 hr, fun hw _ => h4 (by simp [Instr.wellFormed] at hw; omega)⟩
  | rdstat =>
    obtain ⟨h1, h2, h3, h4⟩ := progRdreg_leaves h
    exact ⟨by simpa [Instr.results] using h1, fun c l => by simp [h2, Instr.endOe], by simp [Instr.writesSbit],
      by simp [Instr.writesRdata], fun hr => h3 hr, fun hw _ => h4 (by omega)⟩
  | rdtemp =>
    obtain ⟨h1, h2, h3, h4⟩ := progRdreg_leaves h
    exact ⟨by simpa [Instr.results] using h1, fun c l => by simp [h2, Instr.endOe], by simp [Instr.writesSbit],
      by simp [Instr.writesRdata], fun hr => h3 hr, fun hw _ => h4 (by omega)⟩

end Sys2Proof.Machine
end

