-- ==== Sys2Proof/Laws/Micro.lean ====
section
/-! SUPPORT. The command in flight: one tick performs the next micro-operation of what is left, and running a micro-program is
taking it tick by tick. -/

namespace Sys2Proof.Machine

variable {s u : State} {i : Instr} {m : MicroOp} {p n : Prog}

/-- A tick takes one step of what is left of the command in flight (R23). -/
theorem tickCommand_of_pending (hi : s.ifc = some i) (hp : s.pending i = some p) : tickCommand s = .next (p.stepOne s) := by
  simp [tickCommand, hi, hp]

/-- Performing a micro-operation lengthens the trace of the command in flight by it. -/
theorem inFlightTrace_perform (h : s.upc ≤ s.history.length) : (s.perform m).inFlightTrace = s.inFlightTrace ++ [m] := by
  simp only [State.inFlightTrace, State.perform_history, State.perform_upc, List.length_append, List.length_singleton]
  rw [List.drop_append_of_le_length (by omega)]
  congr 2
  omega

theorem pending_perform (h : s.upc ≤ s.history.length) (hp : s.pending i = some p) (hn : p.after [m] = some n) :
    (s.perform m).pending i = some n := by
  unfold State.pending at hp ⊢
  rw [inFlightTrace_perform h, Prog.after_append, State.perform_params, hp]
  exact hn

@[simp] theorem Prog.settle_of_unfinished (h : n.unfinished = true) : n.settle s = s := by
  cases n <;> simp [Prog.settle, Prog.unfinished] at h ⊢

/-- A program of which nothing is left to do has come to its end. -/
theorem Prog.settle_of_finished (h : n.unfinished = false) : n.settle s = n.run s := by
  cases n <;> simp [Prog.settle, Prog.unfinished, Prog.run] at h ⊢

/-- One tick, and then the ticks of what is left. -/
theorem ticks_of_step (hi : s.ifc = some i) (hp : s.pending i = some p) (hl : s.upc ≤ s.history.length)
    (hn : p.after [m] = some n) (hs : p.stepOne s = n.settle (s.perform m))
    (ih : ∀ (s : State) (i : Instr), n.unfinished = true → s.ifc = some i → s.pending i = some n →
      s.upc ≤ s.history.length → ∃ k ≤ n.maxOps, tickMany k s = .next (n.run s)) :
    ∃ k ≤ n.maxOps + 1, tickMany k s = .next (n.run (s.perform m)) := by
  have h₁ := tickCommand_of_pending hi hp
  rw [hs] at h₁
  cases hf : n.unfinished with
  | false => exact ⟨1, by omega, by simp [tickMany, h₁, Prog.settle_of_finished hf]⟩
  | true =>
    obtain ⟨k, hk, ht⟩ := ih (s.perform m) i hf (by simp [hi]) (pending_perform hl hp hn) (by simp; omega)
    exact ⟨k + 1, by omega, by simp [tickMany, h₁, hf, ht]⟩

/-- Running a micro-program, to its end or up to where it hangs, is taking it tick by tick (92 D20). -/
theorem Prog.run_eq_ticks (p : Prog) (s : State) (i : Instr) (hu : p.unfinished = true) (hi : s.ifc = some i)
    (hp : s.pending i = some p) (hl : s.upc ≤ s.history.length) :
    ∃ n ≤ p.maxOps, tickMany n s = .next (p.run s) := by
  induction p generalizing s i with
  | finish r d => simp [Prog.unfinished] at hu
  | release ph l n ih =>
    by_cases h : s.stallsIn ph = true
    · exact ⟨0, by omega, by simp [tickMany, Prog.run, h]⟩
    · obtain ⟨k, hk, ht⟩ := ticks_of_step (m := .release l) hi hp hl (by simp) (by simp [Prog.stepOne, h, State.perform]) ih
      exact ⟨k, by simpa [Prog.maxOps] using hk, by simpa [Prog.run, h, State.perform] using ht⟩
  | pullLow ph l n ih =>
    by_cases h : s.stallsIn ph = true
    · exact ⟨0, by omega, by simp [tickMany, Prog.run, h]⟩
    · obtain ⟨k, hk, ht⟩ := ticks_of_step (m := .pullLow l) hi hp hl (by simp) (by simp [Prog.stepOne, h, State.perform]) ih
      exact ⟨k, by simpa [Prog.maxOps] using hk, by simpa [Prog.run, h, State.perform] using ht⟩
  | sample ph l n ih =>
    by_cases h : s.stallsIn ph = true
    · exact ⟨0, by omega, by simp [tickMany, Prog.run, h]⟩
    · obtain ⟨k, hk, ht⟩ := ticks_of_step (m := .sample l (s.level l)) (n := n (s.level l)) hi hp hl (by simp)
        (by simp [Prog.stepOne, h, State.perform]) (ih _)
      refine ⟨k, ?_, by simpa [Prog.run, h, State.perform] using ht⟩
      cases hv : s.level l <;> rw [hv] at hk <;> simp only [Prog.maxOps] <;> omega

end Sys2Proof.Machine
end

