-- ==== Sys2Proof/Laws/PerInstr.lean ====
section
/-! SUPPORT. Statements made instruction by instruction. -/

/-- Expanding an instruction gives one of the eleven commands, as well-formed as the instruction, and with the same word
(R57, R58). -/
def Sys2Proof.Laws.ExpandCore.Statement (i : Sys2Proof.Instr) : Prop :=
  ∀ p : Sys2Proof.Params, (i.expand p).isCore = true ∧ (i.expand p).wellFormed = i.wellFormed ∧
    Sys2Proof.encode p (i.expand p) = Sys2Proof.encode p i

namespace Sys2Proof.Laws.ExpandCore

theorem rel (l : Line) : Statement (.rel l) := fun _ => ⟨rfl, rfl, rfl⟩
theorem low (l : Line) : Statement (.low l) := fun _ => ⟨rfl, rfl, rfl⟩
theorem smp (l : Line) : Statement (.smp l) := fun _ => ⟨rfl, rfl, rfl⟩
theorem start : Statement .start := fun _ => ⟨rfl, rfl, rfl⟩
theorem stop : Statement .stop := fun _ => ⟨rfl, rfl, rfl⟩
theorem sendb (byte : Byte) : Statement (.sendb byte) := fun _ => ⟨rfl, rfl, rfl⟩
theorem recvb : Statement .recvb := fun _ => ⟨rfl, rfl, rfl⟩
theorem mack : Statement .mack := fun _ => ⟨rfl, rfl, rfl⟩
theorem mnack : Statement .mnack := fun _ => ⟨rfl, rfl, rfl⟩
theorem wrcmd (code payload : Byte) : Statement (.wrcmd code payload) := fun _ => ⟨rfl, rfl, rfl⟩
theorem rdreg (code : Byte) (n : Nat) : Statement (.rdreg code n) := fun _ => ⟨rfl, rfl, rfl⟩
theorem cfg1shot : Statement .cfg1shot := fun _ => ⟨rfl, rfl, rfl⟩
theorem startconv : Statement .startconv := fun _ => ⟨rfl, rfl, rfl⟩
theorem rdstat : Statement .rdstat := fun _ => ⟨rfl, rfl, rfl⟩
theorem rdtemp : Statement .rdtemp := fun _ => ⟨rfl, rfl, rfl⟩

end Sys2Proof.Laws.ExpandCore
end

