-- ==== Sys2Proof/Laws/Wire.lean ====
section
/-! SUPPORT. Bus symbols of concatenated traces. -/

namespace Sys2Proof.Machine

variable {others : List MicroOp → Line → Bool} {h : List MicroOp}

/-- While the clock is low no condition comes next before it falls. -/
theorem conditionAhead_of_low (hl : wireLevel others h .scl = false) (tr : List MicroOp) :
    conditionAhead others h tr = false := by
  induction tr generalizing h with
  | nil => rfl
  | cons m tr ih =>
    cases hm : wireLevel others (h ++ [m]) .scl with
    | true => simp [conditionAhead, symbolOf, wireLevels, hl, hm]
    | false => simp [conditionAhead, symbolOf, wireLevels, hl, hm]

theorem wireLevel_of_driven {l : Line} (hd : drivenAfter h l = true) : wireLevel others h l = false := by
  simp [wireLevel, hd]

theorem conditionAhead_append {a : List MicroOp} (hd : drivenAfter (h ++ a) .scl = true) (b : List MicroOp) :
    conditionAhead others h (a ++ b) = conditionAhead others h a := by
  induction a generalizing h with
  | nil => exact conditionAhead_of_low (wireLevel_of_driven (by simpa using hd)) b
  | cons m a ih =>
    simp only [List.cons_append, conditionAhead]
    rw [ih (by simpa using hd)]

/-- The symbols of two traces, one after the other, are those of each, where the first ends with the clock driven low: the
operations of the engine but `Stop()`. -/
theorem symbols_append {a : List MicroOp} (hd : drivenAfter (h ++ a) .scl = true) (b : List MicroOp) :
    symbols others h (a ++ b) = symbols others h a ++ symbols others (h ++ a) b := by
  induction a generalizing h with
  | nil => simp [symbols]
  | cons m a ih =>
    have hd' : drivenAfter (h ++ [m] ++ a) .scl = true := by simpa using hd
    simp only [List.cons_append, symbols]
    rw [ih hd', conditionAhead_append hd']
    simp

end Sys2Proof.Machine
end

