-- ==== Sys2Proof/Tests/Slice0.lean ====
section
/-! SUPPORT. The model's own tests. Expected results are transcribed from 95_test_vectors.md (V, P and E numbers), whose value
set P-REF (93 G1) stands in `refParams`; the last part gives, for every obligation with hypotheses, a concrete state and
operands that meet them. -/

namespace Sys2Proof.Tests

open Sys2Proof.Machine

/-! ## Helpers -/

/-- The value set P-REF (93 G1). -/
def refParams : Params where
  addr7 := 0x48#7
  cmdConfig := 0xAC#8
  cmdStartConv := 0xEE#8
  cmdReadTemp := 0xAA#8
  oneShotPayload := 0x01#8
  tSettle := 1

/-- The reset state with P-REF, the oracle script of a vector (0 and 1 as numbers), and no hang. -/
def scripted (bits : List Nat) : State :=
  State.resetOf refParams ⟨.script (bits.map (· == 1)), .never⟩ 0 false 0 [] none

/-- A start state with the given drive states. -/
def at_ (scl sda : Bool) (bits : List Nat) : State := { scripted bits with oeScl := scl, oeSda := sda }

def Rc : MicroOp := .release .scl
def Rd : MicroOp := .release .sda
def Lc : MicroOp := .pullLow .scl
def Ld : MicroOp := .pullLow .sda
def Sc (v : Nat) : MicroOp := .sample .scl (v == 1)
def Sd (v : Nat) : MicroOp := .sample .sda (v == 1)

/-- Whether an outcome is the end state of a vector: trace, result, drive states, `SBIT`, `RDATA`. -/
def ends (o : Host.Outcome State Fault Refusal) (tr : List MicroOp) (r : Result) (scl sda sbit : Bool)
    (rdata : Option Byte) : Bool :=
  match o with
  | .next t =>
    t.history == tr && t.err == r && t.oeScl == scl && t.oeSda == sda && t.sbit == sbit && t.rdata == rdata &&
      t.busy == false && t.ifc == none
  | .fault _ => false
  | .refused _ => false

/-! The byte segments the vectors use, written out from the list in 95_test_vectors.md. -/

def S (v : Nat) : List MicroOp := [Rc, Rd, Ld, Lc, Sc v]
def P : List MicroOp := [Ld, Rc, Rd]
def tx90 (a : Nat) : List MicroOp :=
  [Rd, Rc, Lc, Ld, Rc, Lc, Ld, Rc, Lc, Rd, Rc, Lc, Ld, Rc, Lc, Ld, Rc, Lc, Ld, Rc, Lc, Ld, Rc, Lc, Rd, Rc, Sd a, Lc]
def tx91 (a : Nat) : List MicroOp :=
  [Rd, Rc, Lc, Ld, Rc, Lc, Ld, Rc, Lc, Rd, Rc, Lc, Ld, Rc, Lc, Ld, Rc, Lc, Ld, Rc, Lc, Rd, Rc, Lc, Rd, Rc, Sd a, Lc]
def txAC (a : Nat) : List MicroOp :=
  [Rd, Rc, Lc, Ld, Rc, Lc, Rd, Rc, Lc, Ld, Rc, Lc, Rd, Rc, Lc, Rd, Rc, Lc, Ld, Rc, Lc, Ld, Rc, Lc, Rd, Rc, Sd a, Lc]
def txEE (a : Nat) : List MicroOp :=
  [Rd, Rc, Lc, Rd, Rc, Lc, Rd, Rc, Lc, Ld, Rc, Lc, Rd, Rc, Lc, Rd, Rc, Lc, Rd, Rc, Lc, Ld, Rc, Lc, Rd, Rc, Sd a, Lc]
def txAA (a : Nat) : List MicroOp :=
  [Rd, Rc, Lc, Ld, Rc, Lc, Rd, Rc, Lc, Ld, Rc, Lc, Rd, Rc, Lc, Ld, Rc, Lc, Rd, Rc, Lc, Ld, Rc, Lc, Rd, Rc, Sd a, Lc]
def tx01 (a : Nat) : List MicroOp :=
  [Ld, Rc, Lc, Ld, Rc, Lc, Ld, Rc, Lc, Ld, Rc, Lc, Ld, Rc, Lc, Ld, Rc, Lc, Ld, Rc, Lc, Rd, Rc, Lc, Rd, Rc, Sd a, Lc]
def txA5 (a : Nat) : List MicroOp :=
  [Rd, Rc, Lc, Ld, Rc, Lc, Rd, Rc, Lc, Ld, Rc, Lc, Ld, Rc, Lc, Rd, Rc, Lc, Ld, Rc, Lc, Rd, Rc, Lc, Rd, Rc, Sd a, Lc]
def rx19 : List MicroOp :=
  [Rd, Rc, Sd 0, Lc, Rc, Sd 0, Lc, Rc, Sd 0, Lc, Rc, Sd 1, Lc, Rc, Sd 1, Lc, Rc, Sd 0, Lc, Rc, Sd 0, Lc, Rc, Sd 1, Lc]
def rx80 : List MicroOp :=
  [Rd, Rc, Sd 1, Lc, Rc, Sd 0, Lc, Rc, Sd 0, Lc, Rc, Sd 0, Lc, Rc, Sd 0, Lc, Rc, Sd 0, Lc, Rc, Sd 0, Lc, Rc, Sd 0, Lc]
def rx81 : List MicroOp :=
  [Rd, Rc, Sd 1, Lc, Rc, Sd 0, Lc, Rc, Sd 0, Lc, Rc, Sd 0, Lc, Rc, Sd 0, Lc, Rc, Sd 0, Lc, Rc, Sd 0, Lc, Rc, Sd 1, Lc]

/-! ## Well-formedness (R52) -/

theorem test_rdreg_count_1_well_formed : (Instr.rdreg 0xAA#8 1).wellFormed = true := by decide
theorem test_rdreg_count_0_refused : (Instr.rdreg 0xAA#8 0).wellFormed = false := by decide
theorem test_rdreg_count_3_refused : (Instr.rdreg 0xAA#8 3).wellFormed = false := by decide

/-! ## Decoding (V60 to V81) -/

theorem test_decode_rel : decode 0x010000#24 = .ok (.rel .scl) ∧ decode 0x010100#24 = .ok (.rel .sda) := by decide
theorem test_decode_low : decode 0x020000#24 = .ok (.low .scl) ∧ decode 0x020100#24 = .ok (.low .sda) := by decide
theorem test_decode_smp : decode 0x030000#24 = .ok (.smp .scl) ∧ decode 0x030100#24 = .ok (.smp .sda) := by decide
theorem test_decode_start : decode 0x100000#24 = .ok .start := by decide
theorem test_decode_stop : decode 0x110000#24 = .ok .stop := by decide
theorem test_decode_sendb : decode 0x129000#24 = .ok (.sendb 0x90#8) := by decide
theorem test_decode_recvb : decode 0x130000#24 = .ok .recvb := by decide
theorem test_decode_mack : decode 0x140000#24 = .ok .mack := by decide
theorem test_decode_mnack : decode 0x150000#24 = .ok .mnack := by decide
theorem test_decode_wrcmd :
    decode 0x20AC01#24 = .ok (.wrcmd 0xAC#8 0x01#8) ∧ decode 0x20EE55#24 = .ok (.wrcmd 0xEE#8 0x55#8) := by decide
theorem test_decode_rdreg :
    decode 0x21AA00#24 = .ok (.rdreg 0xAA#8 1) ∧ decode 0x21AA01#24 = .ok (.rdreg 0xAA#8 2) := by decide
/-- The words of the pseudo-commands in Part 3 and V30, V31, V40, V41. -/
theorem test_encode_pseudo :
    encode refParams .cfg1shot = 0x20AC01#24 ∧ encode refParams .startconv = 0x20EE00#24 ∧
    encode refParams .rdstat = 0x21AC00#24 ∧ encode refParams .rdtemp = 0x21AA01#24 := by decide
theorem test_decode_unassigned_opcodes :
    [0x000000#24, 0xFFFFFF#24, 0x040000#24, 0x160000#24, 0x220000#24, 0x0F0000#24, 0x300000#24].all
      (fun w => (decode w).toOption == none) = true := by decide
theorem test_decode_must_be_zero_bits :
    [0x010200#24, 0x010001#24, 0x100100#24, 0x129001#24, 0x21AA02#24].all (fun w => (decode w).toOption == none) = true := by
  decide
/-- The host's numbering: the word is 24 bits wide, bit 0 the least significant (R48). -/
theorem test_decode_table_word :
    decodeTableWord 24 0x21AA01 = some (.rdreg 0xAA#8 2) ∧ decodeTableWord 24 0x129001 = none := by decide
/-- R56: an omitted payload is 0, a parameter name stands for its value, and a missing operand is no command. -/
theorem test_assemble :
    assemble refParams .wrcmd [.cmdStartConv] = some 0x20EE00#24 ∧
    assemble refParams .rdreg [.cmdReadTemp, .number 2] = some 0x21AA01#24 ∧
    assemble refParams .wrcmd [.cmdConfig] = none ∧ assemble refParams .sendb [.number 256] = none := by decide

/-! ## The line driver -/

theorem test_v1_low_scl : ends (exec (.low .scl) (at_ false false [])) [Lc] .ok true false false none = true := by decide
theorem test_v6_low_sda : ends (exec (.low .sda) (at_ true true [])) [Ld] .ok true true false none = true := by decide
theorem test_v3_rel_sda : ends (exec (.rel .sda) (at_ true true [])) [Rd] .ok true false false none = true := by decide
theorem test_v5_rel_scl : ends (exec (.rel .scl) (at_ false false [])) [Rc] .ok false false false none = true := by decide
theorem test_v7_smp_sda : ends (exec (.smp .sda) (at_ false false [1])) [Sd 1] .ok false false true none = true := by decide
theorem test_v9_smp_scl_jammed : ends (exec (.smp .scl) (at_ true false [1])) [Sc 1] .ok true false true none = true := by
  decide

/-! ## The transaction engine -/

theorem test_v10_start : ends (exec .start (at_ false false [0])) (S 0) .ok true true false none = true := by decide
theorem test_v10b_start_busy : ends (exec .start (at_ false false [1])) (S 1) .busBusy true true true none = true := by decide
theorem test_v24_stop : ends (exec .stop (at_ true true [])) P .ok false false false none = true := by decide
/-- V25: `STOP` after a failed `START` clears `ERR` and keeps `SBIT`. -/
theorem test_v25_stop_cleans_up :
    ends (exec .stop { at_ true true [] with err := .busBusy, sbit := true }) P .ok false false true none = true := by decide
theorem test_v15_sendb : ends (exec (.sendb 0xA5#8) (at_ true false [0])) (txA5 0) .ok true false false none = true := by decide
theorem test_v12_sendb_no_ack :
    ends (exec (.sendb 0x90#8) (at_ true true [1])) (tx90 1) .noAck true false true none = true := by decide
theorem test_v17_recvb :
    ends (exec .recvb (at_ true false [0, 0, 0, 1, 1, 0, 0, 1])) rx19 .ok true false true (some 0x19#8) = true := by decide
theorem test_v20_recvb :
    ends (exec .recvb (at_ true true [1, 0, 0, 0, 0, 0, 0, 0])) rx80 .ok true false false (some 0x80#8) = true := by decide
theorem test_v22_mack : ends (exec .mack (at_ true false [])) [Ld, Rc, Lc] .ok true true false none = true := by decide
theorem test_v23_mnack : ends (exec .mnack (at_ true false [])) [Rd, Rc, Lc] .ok true false false none = true := by decide

/-! ## The sequencer -/

theorem test_v37_wrcmd_payload_ignored :
    ends (exec (.wrcmd 0xEE#8 0x55#8) (scripted [0, 0, 0])) (S 0 ++ tx90 0 ++ txEE 0 ++ P) .ok false false false none = true := by
  decide
theorem test_v36_wrcmd_payload_not_acknowledged :
    ends (exec (.wrcmd 0xAC#8 0x01#8) (scripted [0, 0, 0, 1])) (S 0 ++ tx90 0 ++ txAC 0 ++ tx01 1 ++ P) .noAck false false true
      none = true := by decide
theorem test_v44_rdreg_keeps_rdata :
    ends (exec (.rdreg 0xAA#8 2) { scripted [0, 1] with rdata := some 0x81#8 }) (S 0 ++ tx90 1 ++ P) .addrNack false false true
      (some 0x81#8) = true := by decide
theorem test_v46_rdreg_repeated_start_busy :
    ends (exec (.rdreg 0xAA#8 2) (scripted [0, 0, 0, 1])) (S 0 ++ tx90 0 ++ txAA 0 ++ S 1 ++ P) .busBusy false false true
      none = true := by decide
theorem test_v31_cfg1shot :
    ends (exec .cfg1shot (scripted [0, 0, 0, 0])) (S 0 ++ tx90 0 ++ txAC 0 ++ tx01 0 ++ P) .ok false false false none = true := by
  decide
theorem test_v30_startconv :
    ends (exec .startconv (scripted [0, 0, 0])) (S 0 ++ tx90 0 ++ txEE 0 ++ P) .ok false false false none = true := by decide
theorem test_v40_rdstat :
    ends (exec .rdstat (scripted [0, 0, 0, 0, 0, 1, 0, 0, 0, 0, 0, 0, 1]))
      (S 0 ++ tx90 0 ++ txAC 0 ++ S 0 ++ tx91 0 ++ rx81 ++ [Rd, Rc, Lc] ++ P) .ok false false true (some 0x81#8) = true := by
  decide +kernel
theorem test_v41_rdtemp :
    ends (exec .rdtemp (scripted [0, 0, 0, 0, 0, 0, 0, 0, 1, 1, 0, 0, 1, 1, 0, 0, 0, 0, 0, 0, 0]))
      (S 0 ++ tx90 0 ++ txAA 0 ++ S 0 ++ tx91 0 ++ rx19 ++ [Ld, Rc, Lc] ++ rx80 ++ [Rd, Rc, Lc] ++ P) .ok false false false
      (some 0x19#8) = true := by decide +kernel

/-! ## Numbers and conditions -/

/-- R36: the temperature byte as a signed number; 25 is the example of E8. -/
theorem test_degrees : degrees 0x19#8 = 25 ∧ degrees 0xFF#8 = -1 := by decide
/-- V50 to V53: the symbols on the wires, all of them; the first bit of V53's byte is not clocked. -/
theorem test_v50_v51_v52_symbols :
    symbols noOthers [] P = [.startCondition, .stopCondition] ∧
    symbols noOthers [Lc, Ld] (S 0) = [.stopCondition, .startCondition] ∧
    symbols noOthers [Lc] (S 0) = [.startCondition] ∧ symbols noOthers [Lc, Ld] P = [.stopCondition] ∧
    symbols noOthers [] (tx90 0) = [false, false, true, false, false, false, false, true].map .dataBit := by decide
/-! ## Witnesses

One theorem for each obligation with hypotheses: concrete states and operands that meet all of them. `idle` has P-REF and a
script; nothing hangs on it. -/

/-- The state of V41 and P5: idle, with V41's script. -/
def idle : State := scripted [0, 0, 0, 0, 0, 0, 0, 0, 1, 1, 0, 0, 1, 1, 0, 0, 0, 0, 0, 0, 0]

/-- A command in flight goes on with no host action pending (R99). -/
theorem test_step_goes_on : step (idle.issue .mack) = .next ((idle.issue .mack).pullLow .sda) := rfl

theorem idle_envNoHang : idle.envNoHang := fun _ => rfl

/-- A healthy bus with one device that pulls SDA low at the given micro-operations after a start condition; nothing hangs. -/
def wired (pulls : List Nat) : State := State.resetOf refParams ⟨.wired pulls, .never⟩ 0 false 0 [] none

/-- A healthy bus that no other device drives; nothing hangs. -/
def undriven : State := wired []

/-- A bus on which every byte transfer hangs once `n` micro-operations have been performed; the device acknowledges the bytes
of an address phase. -/
def hanging (n : Nat) : State := State.resetOf refParams ⟨.wired [28, 56, 84], .after n⟩ 0 false 0 [] none

/-- A good state with `START` in flight, two of its micro-operations performed. -/
def inFlight : State := ((idle.issue .start).release .scl).release .sda

theorem inFlight_Inv : inFlight.Inv where
  busy_iff_inFlight := rfl
  err_clear_in_flight _ := rfl
  in_flight i hi := by
    cases hi
    exact ⟨rfl, rfl, by decide, by decide, _, rfl, rfl⟩
  drive_is_traced l := by cases l <;> rfl
  sbit_is_last_sample := rfl
  reset_holds h := by cases h

theorem witness_DecodeOfEncodeIsTheCommand :
    (Instr.rdreg 0xAA#8 2).wellFormed = true ∧ (Instr.rdreg 0xAA#8 2).isCore = true ∧ Instr.rdtemp.wellFormed = true := by decide
theorem witness_EncodeOfDecodeIsTheWord : decode 0x20EE55#24 = .ok (.wrcmd 0xEE#8 0x55#8) := by decide
theorem witness_LegalWordsAreTheWordsOfOneRow :
    ∃ x : Fin opcodeRows.length, selectsRow 0x21AA01#24 opcodeRows[x] = true := ⟨⟨10, by decide⟩, by decide⟩
/-- A number, a name and a line as a byte operand at the ends of the range; each count of `RDREG`; an omitted payload. -/
theorem witness_LinesAssembleToTheWordsOfTheirForm :
    255 < 256 ∧ 256 ≥ 256 ∧ AsmOperand.byte? refParams .cmdConfig = some 0xAC#8 ∧
    AsmOperand.byte? refParams (.number 0xEE) = some 0xEE#8 ∧ assemble refParams .wrcmd [.number 0xEE] = some 0x20EE00#24 ∧
    assemble refParams .rdreg [.cmdReadTemp, .number 1] = some 0x21AA00#24 ∧
    assemble refParams .rdreg [.cmdReadTemp, .number 2] = some 0x21AA01#24 ∧
    assemble refParams .rdreg [.cmdReadTemp, .number 3] = none ∧ [AsmOperand.number 0] ≠ [] ∧
    ([] : List AsmOperand).length ≠ 1 ∧ Mnemonic.rdtemp ∈ [Mnemonic.start, .stop, .recvb, .mack, .mnack, .cfg1shot, .startconv,
      .rdstat, .rdtemp] ∧ Mnemonic.sendb ∈ [Mnemonic.rel, .low, .smp, .sendb] := by decide
theorem witness_RelReleasesItsLine : (at_ true true []).busy = false := rfl
theorem witness_LowPullsItsLineLow : (at_ false true []).busy = false := rfl
theorem witness_SmpReadsItsLine : (at_ true false [1]).busy = false := rfl
theorem witness_StartMakesAStartCondition : (scripted [0]).busy = false ∧ (scripted [1]).busy = false := ⟨rfl, rfl⟩
/-- A repeated start from `(1, 0)`. -/
theorem witness_StartMakesAStartCondition_repeated :
    { at_ true false [0] with history := [Lc] }.busy = false ∧
    drivenAfter { at_ true false [0] with history := [Lc] }.history .scl = true ∧
    drivenAfter { at_ true false [0] with history := [Lc] }.history .sda = false := by decide
theorem witness_StopMakesAStopCondition : (at_ true true []).busy = false := rfl
theorem witness_SendbTransmitsAByte : (at_ true true [1]).busy = false ∧ (at_ true true [1]).envNoHang := ⟨rfl, fun _ => rfl⟩
theorem witness_RecvbReceivesAByte : (at_ true false [1]).busy = false ∧ (at_ true false [1]).envNoHang := ⟨rfl, fun _ => rfl⟩
/-- A healthy bus on which no device drives. -/
theorem witness_RecvbReceivesAByte_undriven : undriven.busy = false ∧ undriven.envNoHang ∧ undriven.envPullUp noOthers := by
  refine ⟨rfl, fun _ => rfl, fun h l hd _ => ?_⟩
  cases l <;> simp [undriven, wired, State.resetOf, Environment.level, deviceLow, hd]
theorem witness_MackAcknowledges : (at_ true false []).busy = false := rfl
theorem witness_MnackDoesNotAcknowledge : (at_ true false []).busy = false := rfl
theorem witness_WrcmdTakesAPathOfItsTable : idle.busy = false ∧ idle.envNoHang := ⟨rfl, idle_envNoHang⟩
theorem witness_WrcmdPathsExcludeEachOther :
    (startTrace true ++ stopTrace, Result.busBusy) ∈ wrcmdPaths refParams 0xAC#8 0x01#8 ∧
    answersAgree (scripted [1]).bus 0 [] (startTrace true ++ stopTrace) = true := by
  constructor
  · exact List.mem_cons_self
  · decide
theorem witness_WrcmdIgnoresThePayloadOfOtherCodes :
    idle.busy = false ∧ idle.envNoHang ∧ (0xEE#8 : Byte) ≠ idle.params.cmdConfig := ⟨rfl, idle_envNoHang, by decide⟩
theorem witness_RdregFailsOrReturnsTheFirstByte :
    (2 = 1 ∨ 2 = 2) ∧ (1 = 1 ∨ 1 = 2) ∧ idle.busy = false ∧ idle.envNoHang := ⟨.inr rfl, .inl rfl, rfl, idle_envNoHang⟩
theorem witness_RdregRefusesOtherCounts :
    idle.busy = false ∧ (0 ≠ 1 ∧ 0 ≠ 2) ∧ (3 ≠ 1 ∧ 3 ≠ 2) := ⟨rfl, by decide, by decide⟩
theorem witness_NamedWritesComplete : idle.busy = false ∧ idle.envNoHang := ⟨rfl, idle_envNoHang⟩
theorem witness_NamedReadsComplete : idle.busy = false ∧ idle.envNoHang := ⟨rfl, idle_envNoHang⟩
theorem witness_SequencerReadIsItsEngineCommands :
    idle.busy = false ∧ idle.envNoHang ∧ idle.answers (rdregTrace idle.params 0xAA#8 [0x19#8, 0x80#8]) = true :=
  ⟨rfl, idle_envNoHang, by decide +kernel⟩
theorem witness_EveryCommandCompletesWithinItsBound :
    Instr.rdtemp.wellFormed = true ∧ idle.busy = false ∧ idle.envNoHang := ⟨rfl, rfl, idle_envNoHang⟩
theorem witness_AccessMatrixOfCompletedCommands : ∃ t, exec .start (scripted [1]) = .next t ∧ t.busy = false ∧ t.err ≠ .ok :=
  ⟨_, rfl, by decide, by decide⟩
/-- A command that completes with `OK` and writes `RDATA`, and one that writes neither `SBIT` nor `RDATA`. -/
theorem witness_AccessMatrixOfCompletedCommands_ok :
    (∃ t, exec .recvb (scripted [1, 0, 0, 0, 0, 0, 0, 0]) = .next t ∧ t.busy = false ∧ t.err = .ok) ∧
    ∃ t, exec .stop idle = .next t ∧ t.busy = false := ⟨⟨_, rfl, by decide, by decide⟩, _, rfl, by decide⟩
theorem witness_FrameOfEveryInstruction : ∃ t, exec .mack idle = .next t := ⟨_, rfl⟩
theorem witness_TraceDependsOnOperandsAndSamplesOnly :
    idle.params = { idle with sbit := true, oeScl := true }.params ∧ idle.bus = { idle with sbit := true, oeScl := true }.bus ∧
    idle.resets = { idle with sbit := true, oeScl := true }.resets ∧
    idle.history = { idle with sbit := true, oeScl := true }.history ∧
    (∃ t, exec .stop idle = .next t) ∧ ∃ t', exec .stop { idle with sbit := true, oeScl := true } = .next t' :=
  ⟨rfl, rfl, rfl, rfl, ⟨_, rfl⟩, _, rfl⟩
theorem witness_BusIsNeverBusyUnderEnvLow :
    undriven.envLow ∧ ∃ t, exec .start undriven = .next t ∧ t.busy = false := by
  refine ⟨fun h l hd => ?_, _, rfl, by decide⟩
  simp [undriven, wired, State.resetOf, Environment.level, hd]
theorem witness_SequencerCommandsEndWithAStop :
    Instr.startconv.expand (scripted [1]).params = .wrcmd 0xEE#8 0#8 ∧
    Instr.rdtemp.expand (scripted [1]).params = .rdreg 0xAA#8 2 ∧
    (∃ t, exec .startconv (scripted [1]) = .next t ∧ t.busy = false) ∧
    ∃ t, exec .rdtemp (scripted [1]) = .next t ∧ t.busy = false :=
  ⟨rfl, rfl, ⟨_, rfl, by decide⟩, _, rfl, by decide⟩
/-- `SENDB` and `RECVB` at their first and last micro-operation. -/
theorem witness_ByteTransfersCanHangAnywhere :
    (hanging 27).busy = false ∧ 0 < 28 ∧ (hanging 0).bus.hang = .after ((hanging 0).history.length + 0) ∧
    27 < 28 ∧ (hanging 27).bus.hang = .after ((hanging 27).history.length + 27) ∧
    24 < 25 ∧ (hanging 24).bus.hang = .after ((hanging 24).history.length + 24) := by decide
/-- A sequencer command in the last micro-operation of its first byte. -/
theorem witness_ByteTransfersCanHangAnywhere_first_byte :
    (hanging 32).busy = false ∧ (hanging 32).answers (startTrace false) = true ∧
    (hanging 32).bus.hang = .after ((hanging 32).history.length + (5 + 27)) := by decide
/-- `RDREG` in the last micro-operation of its first received byte. -/
theorem witness_ByteTransfersCanHangAnywhere_received_byte :
    (hanging 118).busy = false ∧ (hanging 118).answers (rdregAddressed refParams 0xAA#8) = true ∧
    (hanging 118).bus.hang = .after ((hanging 118).history.length + (94 + 24)) := by decide +kernel
/-- `RDREG` in the acknowledgment step of its first received byte. -/
theorem witness_ByteTransfersCanHangAnywhere_acknowledgment :
    let tr := rdregAddressed refParams 0xAA#8 ++ receiveTrace 0xFF#8 ++ [Ld]
    (Instr.rdreg 0xAA#8 2).wellFormed = true ∧ (hanging 120).answers tr = true ∧
    (∃ q, (program (hanging 120).params (.rdreg 0xAA#8 2)).after tr = some q ∧ q.unfinished = true ∧
      q.phase = .byteTransfer) ∧ (hanging 120).bus.hang = .after ((hanging 120).history.length + tr.length) :=
  ⟨rfl, by decide +kernel, ⟨_, rfl, rfl, rfl⟩, by decide +kernel⟩
theorem witness_OnlyByteTransfersHang : ∃ t, exec (.sendb 0x90#8) (hanging 2) = .next t ∧ t.busy = true := ⟨_, rfl, by decide⟩
theorem witness_OnlyResetEndsAHang :
    (∃ t, exec .recvb (hanging 2) = .next t ∧ t.busy = true) ∧ HostAction.read .status ≠ .assertReset ∧
    ∃ t u, exec .recvb (hanging 2) = .next t ∧ hostStep (.read .status) t = .next u :=
  ⟨⟨_, rfl, by decide⟩, by decide, _, _, rfl, rfl⟩
theorem witness_BigStepIsManyMicroSteps : ∃ t, exec .start idle = .next t := ⟨_, rfl⟩
theorem witness_TickPerformsOneMicroOperation : inFlight.Inv ∧ inFlight.ifc = some .start := ⟨inFlight_Inv, rfl⟩
theorem witness_WritingCmdIssuesTheCommand : decode 0x100000#24 = .ok .start ∧ idle.busy = false ∧ idle.resetAsserted = false := by
  decide
theorem witness_CommandsWhileBusyAreRefused : inFlight.busy = true ∧ inFlight.resetAsserted = false := ⟨rfl, rfl⟩
theorem witness_IllegalWordsCompleteWithIllegal :
    decode 0x000000#24 = .error .unassignedOpcode ∧ decode 0x129001#24 = .error .reservedBitSet ∧ idle.busy = false ∧
    idle.resetAsserted = false := by decide
theorem witness_HostRegisterAccesses :
    idle.rdata = none ∧ { idle with rdata := some 0x19#8 }.rdata = some 0x19#8 := ⟨rfl, rfl⟩
/-- A command in flight is dropped, a word written under reset is lost, and the release leaves the block waiting (R105). -/
theorem witness_ResetFromEveryState : HostAction.tick ≠ .releaseReset ∧
    (∃ t, hostStep .assertReset inFlight = .next t ∧ hostStep (.write .cmd 0x100000#24) t = .next t ∧
      hostStep .tick t = .next t ∧ t.oeSda = false ∧ t.busy = false ∧ t.resets = 1) :=
  ⟨by decide, _, rfl, rfl, rfl, rfl, rfl, rfl⟩
/-- R17, with `REG_BASE` 0x40. -/
theorem test_register_addresses :
    HostReg.address { refParams with regBase := 0x40 } .lines = 0x43 ∧
    HostReg.atAddress { refParams with regBase := 0x40 } 0x42 = some .rdata ∧
    HostReg.atAddress { refParams with regBase := 0x40 } 0x44 = none := by decide
theorem witness_StepRunsTheDecodedInstruction :
    { idle with host := [.call 0x100000#24] }.host = .call 0x100000#24 :: [] ∧ idle.resetAsserted = false ∧ decode 0x100000#24 = .ok .start ∧
    decodeTableWord 24 0x100000 = some .start ∧ inFlight.host = [] ∧ inFlight.resetAsserted = false := by decide
theorem witness_EveryStepKeepsTheInvariant :
    { inFlight with host := [.tick] }.Inv ∧ ∃ t, step { inFlight with host := [.tick] } = .next t := by
  refine ⟨⟨rfl, fun _ => rfl, inFlight_Inv.in_flight, fun l => by cases l <;> rfl, rfl,
    fun h => by cases h⟩, _, rfl⟩
theorem witness_GoodStatesFaultOnlyOnAnEmptyRdata :
    { inFlight with host := [.read .rdata] }.Inv ∧ step { inFlight with host := [.read .rdata] } = .fault .rdataHasNoValue := by
  refine ⟨⟨rfl, fun _ => rfl, inFlight_Inv.in_flight, fun l => by cases l <;> rfl, rfl,
    fun h => by cases h⟩, rfl⟩
theorem witness_NoStepChangesTheParameters : ∃ t, step { idle with host := [.assertReset] } = .next t := ⟨_, rfl⟩
/-- The history `Lc Ld` drives both lines low; the middle micro-operation of `MNACK` follows its data change. -/
theorem witness_DataChangesOnlyWithTheClockLow :
    drivenAfter [Lc, Ld] .scl = true ∧ nackTrace ∈ [sendTrace 0#8 false, receiveTrace 0#8, ackTrace, nackTrace] ∧
    nackTrace = [] ++ Rd :: [Rc, Lc] ∧ drivenAfter ([Lc, Ld] ++ [] ++ [Rd]) .sda ≠ drivenAfter ([Lc, Ld] ++ []) .sda :=
  ⟨by decide, by simp, rfl, by decide⟩
theorem witness_BytesMakeNoConditions :
    (∀ g m, drivenAfter g .scl = false → drivenAfter (g ++ [m]) .scl = false → noOthers (g ++ [m]) .sda = noOthers g .sda) ∧
    drivenAfter [Lc, Ld] .scl = true ∧ ackTrace ∈ [sendTrace 0#8 false, receiveTrace 0#8, ackTrace, nackTrace] :=
  ⟨fun _ _ _ _ => rfl, by decide, by simp⟩
theorem witness_BitsOnTheWires : drivenAfter [Lc] .scl = true := by decide
theorem witness_SymbolsOfStartAndStop :
    (drivenAfter [] .scl = false ∧ drivenAfter [] .sda = false) ∧ (drivenAfter [Lc] .scl = true ∧ drivenAfter [Lc] .sda = false) ∧
    (drivenAfter [Lc, Ld] .scl = true ∧ drivenAfter [Lc, Ld] .sda = true) ∧
    (drivenAfter [Ld] .scl = false ∧ drivenAfter [Ld] .sda = true) := by decide
theorem witness_EmptyTransactionReleasesTheLines : (scripted [1]).busy = false := rfl
theorem witness_SessionTransitions :
    inFlight.busy = true ∧ { idle with err := .noAck }.err ≠ .ok ∧
    ({ idle with rdata := some 0x81#8 }.busy = false ∧ { idle with rdata := some 0x81#8 }.err = .ok ∧
      { idle with rdata := some 0x81#8 }.rdata = some 0x81#8) := by decide
/-- R80, R86: an ignored payload does not matter, and a start-conversion needs no earlier state; U6: another configuration
payload is no configure-one-shot. -/
theorem test_session_events :
    sessionEvent (.wrcmd 0xEE#8 0x55#8) idle = some .started ∧ Session.conversionDone.next .started = some .converting ∧
    sessionEvent (.wrcmd 0xAC#8 0x01#8) idle = some .configured ∧ sessionEvent (.wrcmd 0xAC#8 0x02#8) idle = none := by decide
/-- The script of P1. -/
theorem witness_BootStartsAConversion :
    (scripted [0, 0, 0, 0, 0, 0, 0]).busy = false ∧ (scripted [0, 0, 0, 0, 0, 0, 0]).envNoHang ∧
    (scripted [0, 0, 0, 0, 0, 0, 0]).answers
      (startTrace false ++ sendTrace (addrW refParams) false ++ sendTrace refParams.cmdConfig false ++
        sendTrace refParams.oneShotPayload false ++ stopTrace ++
      (startTrace false ++ sendTrace (addrW refParams) false ++ sendTrace refParams.cmdStartConv false ++ stopTrace)) = true :=
  ⟨rfl, fun _ => rfl, by decide +kernel⟩
/-- The script of P2. -/
theorem witness_PollReadsTheTemperatureOnlyWhenDone_P2 :
    doneFlag 0x01#8 = false ∧ (scripted [0, 0, 0, 0, 0, 0, 0, 0, 0, 0, 0, 0, 1]).busy = false ∧
    (scripted [0, 0, 0, 0, 0, 0, 0, 0, 0, 0, 0, 0, 1]).envNoHang ∧
    (scripted [0, 0, 0, 0, 0, 0, 0, 0, 0, 0, 0, 0, 1]).answers (rdregTrace refParams refParams.cmdConfig [0x01#8]) = true :=
  ⟨by decide, rfl, fun _ => rfl, by decide +kernel⟩
/-- The script of P3. -/
def p3 : State :=
  scripted ([0, 0, 0, 0, 0, 1, 0, 0, 0, 0, 0, 0, 1] ++ [0, 0, 0, 0, 0, 0, 0, 0, 1, 1, 0, 0, 1, 1, 0, 0, 0, 0, 0, 0, 0] ++ [0, 0, 0])
theorem witness_PollReadsTheTemperatureOnlyWhenDone_P3 :
    doneFlag 0x81#8 = true ∧ p3.busy = false ∧ p3.envNoHang ∧
    p3.answers (rdregTrace p3.params p3.params.cmdConfig [0x81#8] ++ rdregTrace p3.params p3.params.cmdReadTemp [0x19#8, 0x80#8] ++
      (startTrace false ++ sendTrace (addrW p3.params) false ++ sendTrace p3.params.cmdStartConv false ++ stopTrace)) = true :=
  ⟨by decide, rfl, fun _ => rfl, by decide +kernel⟩
/-- The script of P4. -/
theorem witness_PollReadsTheTemperatureOnlyWhenDone_P4 :
    (scripted [0, 1]).busy = false ∧ (scripted [0, 1]).envNoHang ∧
    (scripted [0, 1]).answers (startTrace false ++ sendTrace (addrW refParams) true ++ stopTrace) = true :=
  ⟨rfl, fun _ => rfl, by decide⟩
/-- A status read that fails on the first, third and last row of its table, with a stale `RDATA` whose bit 7 is set. -/
theorem witness_PollReadsTheTemperatureOnlyWhenDone_failing_status :
    (∃ path ∈ rdregFailures refParams 0xAC#8, (scripted [1]).answers path.1 = true) ∧
    (∃ path ∈ rdregFailures refParams 0xAC#8, { scripted [0, 0, 1] with rdata := some 0x81#8 }.answers path.1 = true) ∧
    ∃ path ∈ rdregFailures refParams 0xAC#8, (scripted [0, 0, 0, 0, 1]).answers path.1 = true := by decide +kernel
/-- A set done-flag, then a temperature read whose address byte is not acknowledged (P4's answers after those of V40). -/
theorem witness_PollReadsTheTemperatureOnlyWhenDone_failing_temperature :
    doneFlag 0x81#8 = true ∧ ∃ path ∈ rdregFailures refParams refParams.cmdReadTemp,
      (scripted [0, 0, 0, 0, 0, 1, 0, 0, 0, 0, 0, 0, 1, 0, 1]).answers
        (rdregTrace refParams refParams.cmdConfig [0x81#8] ++ path.1) = true := by decide +kernel

/-! ## A sensor (R41)

The device of `wired [28, 56, 84]` acknowledges the bytes it is sent, sends only ones, and its conversions are always done. -/

def sensor : State := wired [28, 56, 84]
def sensorLow : List MicroOp → Line → Bool := deviceLow [28, 56, 84]
def sensorBytes (_ : List MicroOp) (code : Byte) : List Byte := if code = 0xAC#8 then [0xFF#8] else [0xFF#8, 0xFF#8]

/-- On an idle bus the device's answers after a trace that begins a transaction do not depend on what came before. -/
theorem sensorLow_of_idle {h : List MicroOp} (hi : idleAfter h) (tr : List MicroOp) :
    sensorLow (h ++ (S 0 ++ tr)) .sda = sensorLow (S 0 ++ tr) .sda := by
  simp only [sensorLow, deviceLow, List.foldl_append]
  obtain ⟨n, hn⟩ := startCount_of_idle hi
  rw [hn]
  rfl

theorem sensorBytes_get {h : List MicroOp} {code v : Byte} {k : Nat} (hv : (sensorBytes h code)[k]? = some v) :
    v = 0xFF#8 ∧ k < (sensorBytes [] code).length := by
  obtain ⟨hk, hv⟩ := List.getElem?_eq_some_iff.1 hv
  refine ⟨?_, hk⟩
  have : ∀ b ∈ sensorBytes h code, b = 0xFF#8 := by
    unfold sensorBytes
    split <;> simp
  exact hv ▸ this _ (List.getElem_mem hk)

theorem sensor_EnvSlave : EnvSlave refParams (fun _ => True) sensorLow sensorBytes (fun _ => true) where
  acks_address h hi _ := (sensorLow_of_idle hi _).trans (by decide +kernel)
  acks_code h hi _ code hc := by
    rw [List.append_assoc, show startTrace false = S 0 from rfl, sensorLow_of_idle hi]
    revert code; decide +kernel
  acks_payload h hi _ := by
    simp only [List.append_assoc]
    exact (sensorLow_of_idle hi _).trans (by decide +kernel)
  acks_read_address h hi _ code hc := by
    simp only [List.append_assoc]
    refine (sensorLow_of_idle hi _).trans ?_
    revert code; decide +kernel
  drives_bits h hi _ code hc k v hv j := by
    obtain ⟨rfl, hk⟩ := sensorBytes_get hv
    rw [show sensorBytes h = sensorBytes [] from rfl]
    simp only [readingTrace, rdregAddressed, List.append_assoc]
    refine (sensorLow_of_idle hi _).trans ?_
    clear hv; revert j; revert hk; revert k; revert code; decide +kernel
  releases_for_ack h hi _ code hc k v hv m hm := by
    obtain ⟨rfl, hk⟩ := sensorBytes_get hv
    rw [show sensorBytes h = sensorBytes [] from rfl]
    simp only [readingTrace, rdregAddressed, List.append_assoc]
    refine (sensorLow_of_idle hi _).trans ?_
    clear hv; revert m; revert hk; revert k; revert code; decide +kernel
  register_sizes _ _ _ := ⟨rfl, rfl⟩
  status_is_done h _ _ v hv := by cases hv; rfl
  no_stretch _ _ := rfl

theorem witness_NamedCommandsSucceedWithTheSensor :
    sensor.busy = false ∧ sensor.envNoHang ∧ sensor.wiredAnd sensorLow ∧
    EnvSlave sensor.params (fun _ => True) sensorLow sensorBytes (fun _ => true) ∧ idleAfter sensor.history ∧ True :=
  ⟨rfl, fun _ => rfl, fun _ _ => rfl, sensor_EnvSlave, fun _ => rfl, trivial⟩

end Sys2Proof.Tests
end

section
/-! PROOFS. The state's statements (10_state.md): what keeps the invariant, one lemma per way a step can go, and what the
instructions leave of the state. -/

namespace Sys2Proof.Machine

variable {s t : State} {i : Instr} {tr : List MicroOp} {p q : Prog}

/-! ## A command midway through its trace -/

@[simp] theorem midway_busy : (s.midway i tr).busy = true := by simp [State.midway]
@[simp] theorem midway_err : (s.midway i tr).err = .ok := by simp [State.midway]
@[simp] theorem midway_ifc : (s.midway i tr).ifc = some (i.expand s.params) := by simp [State.midway]
@[simp] theorem midway_upc : (s.midway i tr).upc = tr.length := by simp [State.midway]
@[simp] theorem midway_params : (s.midway i tr).params = s.params := by simp [State.midway]
@[simp] theorem midway_history : (s.midway i tr).history = s.history ++ tr := by simp [State.midway]
@[simp] theorem midway_resetAsserted : (s.midway i tr).resetAsserted = s.resetAsserted := by simp [State.midway]
@[simp] theorem midway_rdata : (s.midway i tr).rdata = s.rdata := by simp [State.midway]
@[simp] theorem midway_sbit : (s.midway i tr).sbit = lastSample s.sbit tr := by simp [State.midway]
@[simp] theorem midway_oe (l : Line) : (s.midway i tr).oe l = drivenFrom (s.oe l) tr l := by simp [State.midway]

theorem sameOutside_midway : sameOutside s (s.midway i tr) := by simp [sameOutside, State.midway]

/-- What is left of a command midway is what its micro-program has left after the trace. -/
theorem pending_midway : (s.midway i tr).pending (i.expand s.params) = (program s.params i).after tr := by
  simp [State.pending, State.inFlightTrace]

/-- A legal word, issued, is midway through its command with nothing performed yet. -/
theorem issue_eq_midway (hc : i.isCore = true) : s.issue i = s.midway i [] := by
  rw [State.midway, expand_of_isCore hc, State.performAll_nil]

/-- What a legal word decodes to is one of the eleven commands, and well-formed (R51, R52). -/
theorem decode_isCore_wellFormed {w : CmdWord} (h : decode w = .ok i) : i.isCore = true ∧ i.wellFormed = true := by
  rcases decode_cases h with ⟨_, -, rfl⟩ | ⟨_, -, rfl⟩ | ⟨_, -, rfl⟩ | ⟨-, rfl⟩ | ⟨-, rfl⟩ | ⟨_, -, rfl⟩ | ⟨-, rfl⟩ |
    ⟨-, rfl⟩ | ⟨-, rfl⟩ | ⟨_, _, -, rfl⟩ | ⟨_, v, -, rfl⟩
  case inr.inr.inr.inr.inr.inr.inr.inr.inr.inr => cases v <;> exact ⟨rfl, rfl⟩
  all_goals exact ⟨rfl, rfl⟩

/-! ## The drive states and `SBIT` follow the trace -/

/-- The part of the invariant that every micro-operation keeps by itself: drive states and `SBIT` are what the trace since
reset left (R15, R18). -/
structure State.Traced (s : State) : Prop where
  drive : ∀ l, s.oe l = drivenAfter s.history l
  sbit : s.sbit = lastSample false s.history

theorem State.Inv.traced (h : s.Inv) : s.Traced := ⟨h.drive_is_traced, h.sbit_is_last_sample⟩

theorem State.Traced.issue (h : s.Traced) (i : Instr) : (s.issue i).Traced :=
  ⟨fun l => by simpa using h.drive l, h.sbit⟩

theorem State.Traced.complete (h : s.Traced) (r : Result) (d : Option Byte) : (s.complete r d).Traced :=
  ⟨fun l => by simpa using h.drive l, h.sbit⟩

theorem State.Traced.performAll (h : s.Traced) (tr : List MicroOp) : (s.performAll tr).Traced where
  drive l := by rw [State.performAll_oe, State.performAll_history, drivenAfter_append, h.drive]
  sbit := by rw [State.performAll_sbit, State.performAll_history, lastSample_append, h.sbit]

theorem State.Traced.perform (h : s.Traced) (m : MicroOp) : (s.perform m).Traced := h.performAll [m]

theorem State.Traced.midway (h : s.Traced) (i : Instr) (tr : List MicroOp) : (s.midway i tr).Traced :=
  (h.issue _).performAll tr

/-! ## The three kinds of good state: in reset, idle, with a command in flight -/

theorem inv_of_inResetState (h : s.inResetState) : s.Inv := by
  have ⟨hoe, hb, _, hsb, _, hi, hh⟩ := h
  exact {
    busy_iff_inFlight := by simp [hb, hi]
    err_clear_in_flight := by simp [hb]
    in_flight := by simp [State.inFlightGood, hi]
    drive_is_traced := fun l => by rw [hoe, hh]; rfl
    sbit_is_last_sample := by rw [hsb, hh]; rfl
    reset_holds := fun _ => h }

theorem inv_of_idle (ht : s.Traced) (hb : s.busy = false) (hi : s.ifc = none) (hr : s.resetAsserted = false) : s.Inv where
  busy_iff_inFlight := by simp [hb, hi]
  err_clear_in_flight := by simp [hb]
  in_flight := by simp [State.inFlightGood, hi]
  drive_is_traced := ht.drive
  sbit_is_last_sample := ht.sbit
  reset_holds := by simp [hr]

/-- With something left to do of a well-formed command, `UPC` is at most 152: no command has more than 153 micro-operations
(R124). -/
theorem upc_le_of_pending (hw : i.wellFormed = true) (hl : s.upc ≤ s.history.length) (hp : s.pending i = some p)
    (hu : p.unfinished = true) : s.upc ≤ 152 := by
  have hlen : s.inFlightTrace.length = s.upc := by simp [State.inFlightTrace]; omega
  have hsum := Prog.length_add_maxOps_le hp
  have hmax := maxOps_program_le s.params hw
  have hpos := (Prog.unfinished_iff p).1 hu
  omega

theorem inv_of_inFlight (ht : s.Traced) (hb : s.busy = true) (he : s.err = .ok) (hr : s.resetAsserted = false)
    (hi : s.ifc = some i) (hc : i.isCore = true) (hw : i.wellFormed = true) (hl : s.upc ≤ s.history.length)
    (hp : s.pending i = some p) (hu : p.unfinished = true) : s.Inv where
  busy_iff_inFlight := by simp [hb, hi]
  err_clear_in_flight _ := he
  in_flight j hj := by
    obtain rfl : i = j := Option.some.inj (hi.symm.trans hj)
    exact ⟨hc, hw, hl, upc_le_of_pending hw hl hp hu, p, hp, hu⟩
  drive_is_traced := ht.drive
  sbit_is_last_sample := ht.sbit
  reset_holds := by simp [hr]

/-- A well-formed command that has performed a trace of its own and has something left to do is in a good state. -/
theorem inv_midway (ht : s.Traced) (hr : s.resetAsserted = false) (hw : i.wellFormed = true)
    (hp : (program s.params i).after tr = some q) (hu : q.unfinished = true) : (s.midway i tr).Inv :=
  inv_of_inFlight (ht.midway i tr) midway_busy midway_err (by simpa using hr) midway_ifc (by simp) (by simpa using hw)
    (by simp) (pending_midway.trans hp) hu

/-- Nothing of the host's is part of the invariant. -/
theorem State.Inv.withHostView (h : s.Inv) (host : List HostAction) (data : Option Byte) (reads : Nat) :
    { s with host := host, hostData := data, pinReads := reads }.Inv :=
  ⟨h.busy_iff_inFlight, h.err_clear_in_flight, h.in_flight, h.drive_is_traced, h.sbit_is_last_sample, h.reset_holds⟩

theorem State.Inv.ifc_of_not_busy (h : s.Inv) (hb : s.busy = false) : s.ifc = none := by
  simpa [hb] using h.busy_iff_inFlight.symm

theorem State.Inv.released_of_inFlight (h : s.Inv) (hi : s.ifc = some i) : s.resetAsserted = false := by
  by_contra hr
  obtain ⟨-, -, -, -, -, hn, -⟩ := h.reset_holds (by simpa using hr)
  simp [hn] at hi

/-! ## A tick, from a good state -/

/-- Everything one step of an unfinished micro-program can do: it hangs, or it performs the next micro-operation. -/
theorem Prog.stepOne_cases (hu : p.unfinished = true) (s : State) :
    (s.stallsIn p.phase = true ∧ p.stepOne s = s) ∨
    ∃ m q, p.after [m] = some q ∧ p.stepOne s = q.settle (s.perform m) := by
  cases p with
  | release ph l next =>
    by_cases hs : s.stallsIn ph = true
    · exact .inl ⟨hs, if_pos hs⟩
    · exact .inr ⟨.release l, next, by simp, if_neg hs⟩
  | pullLow ph l next =>
    by_cases hs : s.stallsIn ph = true
    · exact .inl ⟨hs, if_pos hs⟩
    · exact .inr ⟨.pullLow l, next, by simp, if_neg hs⟩
  | sample ph l next =>
    by_cases hs : s.stallsIn ph = true
    · exact .inl ⟨hs, if_pos hs⟩
    · exact .inr ⟨.sample l (s.level l), next (s.level l), by simp, if_neg hs⟩
  | finish r d => simp [Prog.unfinished] at hu

theorem hangsHere_of_stallsIn {ph : Phase} (h : s.stallsIn ph = true) : s.hangsHere = true := by
  cases ph with
  | framing => simp [State.stallsIn] at h
  | byteTransfer => exact h

/-- Everything a tick can do in a good state with a command in flight: the command hangs, or goes on after one
micro-operation, or completes with it (R23, R104). -/
theorem tickCommand_cases (h : s.Inv) (hi : s.ifc = some i) :
    (s.hangsHere = true ∧ tickCommand s = .next s) ∨
    (∃ m q, (s.perform m).pending i = some q ∧ q.unfinished = true ∧ tickCommand s = .next (s.perform m)) ∨
    (∃ m r d, tickCommand s = .next ((s.perform m).complete r d)) := by
  obtain ⟨-, -, hl, -, p, hp, hu⟩ := h.in_flight i hi
  rw [tickCommand_of_pending hi hp]
  rcases Prog.stepOne_cases hu s with ⟨hs, hstep⟩ | ⟨m, q, hq, hstep⟩ <;> rw [hstep]
  · exact .inl ⟨hangsHere_of_stallsIn hs, rfl⟩
  · cases q with
    | finish r d => exact .inr (.inr ⟨m, r, d, rfl⟩)
    | _ => exact .inr (.inl ⟨m, _, pending_perform hl hp hq, rfl, rfl⟩)

theorem tickCommand_keeps_inv (h : s.Inv) (hn : tickCommand s = .next t) : t.Inv := by
  cases hi : s.ifc with
  | none =>
    rw [tickCommand, hi] at hn
    cases hn
    exact h
  | some i =>
    have hr := h.released_of_inFlight hi
    have hb : s.busy = true := by rw [h.busy_iff_inFlight, hi]; rfl
    obtain ⟨hc, hw, hl, -⟩ := h.in_flight i hi
    rcases tickCommand_cases h hi with ⟨-, hk⟩ | ⟨m, q, hp, hu, hk⟩ | ⟨m, r, d, hk⟩ <;> rw [hk] at hn <;> cases hn
    · exact h
    · exact inv_of_inFlight (h.traced.perform m) (by simpa using hb) (by simpa using h.err_clear_in_flight hb)
        (by simpa using hr) (by simpa using hi) hc hw (by simp; omega) hp hu
    · exact inv_of_idle ((h.traced.perform m).complete r d) rfl rfl (by simpa using hr)

/-! ## The host's actions, from a good state -/

theorem exec_keeps_inv (h : s.Inv) (hr : s.resetAsserted = false) (hn : exec i s = .next t) : t.Inv := by
  obtain ⟨-, hw, -⟩ := exec_next hn
  obtain ⟨tr, q, hq, -, ⟨r, d, -, rfl⟩ | ⟨hu, -, rfl⟩⟩ := exec_cases hn
  · exact inv_of_idle ((h.traced.midway i tr).complete r d) rfl rfl (by simpa using hr)
  · exact inv_midway h.traced hr hw hq hu

theorem illegalCommand_keeps_inv (h : s.Inv) (hr : s.resetAsserted = false) (hn : illegalCommand s = .next t) : t.Inv := by
  unfold illegalCommand at hn
  split at hn
  · contradiction
  · next hb =>
    cases hn
    have hb : s.busy = false := by simpa using hb
    exact inv_of_idle ⟨h.drive_is_traced, h.sbit_is_last_sample⟩ hb (h.ifc_of_not_busy hb) hr

theorem callCmd_keeps_inv {w : CmdWord} (h : s.Inv) (hn : callCmd w s = .next t) : t.Inv := by
  unfold callCmd at hn
  split at hn
  · cases hn
    exact h
  · next hr =>
    split at hn
    · exact illegalCommand_keeps_inv h (by simpa using hr) hn
    · exact exec_keeps_inv h (by simpa using hr) hn

theorem writeCmd_keeps_inv {w : CmdWord} (h : s.Inv) (hn : writeCmd w s = .next t) : t.Inv := by
  unfold writeCmd at hn
  split at hn
  · cases hn
    exact h
  next hr =>
  split at hn
  · exact illegalCommand_keeps_inv h (by simpa using hr) hn
  next i hd =>
  split at hn
  · contradiction
  · cases hn
    obtain ⟨hc, hw⟩ := decode_isCore_wellFormed hd
    rw [issue_eq_midway hc]
    exact inv_midway h.traced (by simpa using hr) hw (Prog.after_nil _) (program_unfinished _ i)

theorem writeReg_keeps_inv {r : HostReg} {w : CmdWord} (h : s.Inv) (hn : writeReg r w s = .next t) : t.Inv := by
  cases r with
  | cmd => exact writeCmd_keeps_inv h hn
  | _ =>
    cases hn
    exact h

/-- A read of `RDATA` gives its byte, and faults while there is none (R28). -/
theorem readReg_rdata_of_some {b : Byte} (h : s.rdata = some b) :
    readReg .rdata s = .next { s with hostData := some b } := by simp [readReg, h]
theorem readReg_rdata_of_none (h : s.rdata = none) : readReg .rdata s = .fault .rdataHasNoValue := by simp [readReg, h]

theorem readReg_keeps_inv {r : HostReg} (h : s.Inv) (hn : readReg r s = .next t) : t.Inv := by
  cases r with
  | cmd => cases hn
  | status =>
    cases hn
    exact h.withHostView s.host _ s.pinReads
  | rdata =>
    cases hd : s.rdata with
    | none => simp [readReg_rdata_of_none hd] at hn
    | some b =>
      rw [readReg_rdata_of_some hd] at hn
      cases hn
      exact h.withHostView s.host _ s.pinReads
  | lines =>
    cases hn
    exact h.withHostView s.host _ _

theorem tickBlock_keeps_inv (h : s.Inv) (hn : tickBlock s = .next t) : t.Inv := by
  unfold tickBlock at hn
  split at hn
  · cases hn
    exact h
  · exact tickCommand_keeps_inv h hn

theorem releaseReset_keeps_inv (h : s.Inv) : (releaseReset s).Inv :=
  ⟨h.busy_iff_inFlight, h.err_clear_in_flight, h.in_flight, h.drive_is_traced, h.sbit_is_last_sample, by simp⟩

theorem hostStep_keeps_inv {a : HostAction} (h : s.Inv) (hn : hostStep a s = .next t) : t.Inv := by
  cases a with
  | call w => exact callCmd_keeps_inv h hn
  | write r w => exact writeReg_keeps_inv h hn
  | read r => exact readReg_keeps_inv h hn
  | tick => exact tickBlock_keeps_inv h hn
  | assertReset =>
    cases hn
    exact inv_of_inResetState (assertReset_inResetState s)
  | releaseReset =>
    cases hn
    exact releaseReset_keeps_inv h

/-- Settles O49: the step is one action of the host, or a tick where none is pending, and each keeps the invariant. -/
theorem everyStepKeepsTheInvariant : Obligations.EveryStepKeepsTheInvariant := by
  intro s t h hn
  unfold step at hn
  split at hn
  · exact hostStep_keeps_inv h hn
  · exact hostStep_keeps_inv (h.withHostView _ s.hostData s.pinReads) hn

/-- Settles O48: the reset state is in reset. -/
theorem invariantHoldsAtReset : Obligations.InvariantHoldsAtReset :=
  inv_of_inResetState ⟨fun l => by cases l <;> rfl, rfl, rfl, rfl, rfl, rfl, rfl⟩

/-! ## Faults -/

theorem exec_ne_fault (i : Instr) (s : State) (f : Fault) : exec i s ≠ .fault f := by
  cases hb : s.busy with
  | true => simp [exec_of_busy hb]
  | false =>
    cases hw : i.wellFormed with
    | false => simp [exec_of_illFormed hb hw]
    | true => simp [exec_eq_runCommand hw, runCommand, hb]

theorem illegalCommand_ne_fault (s : State) (f : Fault) : illegalCommand s ≠ .fault f := by
  unfold illegalCommand
  split <;> simp

theorem callCmd_ne_fault (w : CmdWord) (s : State) (f : Fault) : callCmd w s ≠ .fault f := by
  unfold callCmd
  split
  · simp
  · split
    · exact illegalCommand_ne_fault s f
    · exact exec_ne_fault _ s f

theorem writeCmd_ne_fault (w : CmdWord) (s : State) (f : Fault) : writeCmd w s ≠ .fault f := by
  unfold writeCmd
  split
  · simp
  · split
    · exact illegalCommand_ne_fault s f
    · split <;> simp

theorem writeReg_ne_fault (r : HostReg) (w : CmdWord) (s : State) (f : Fault) : writeReg r w s ≠ .fault f := by
  cases r with
  | cmd => exact writeCmd_ne_fault w s f
  | _ => simp [writeReg]

/-- From a good state no tick loses track of the command in flight. -/
theorem tickBlock_ne_fault (h : s.Inv) (f : Fault) : tickBlock s ≠ .fault f := by
  unfold tickBlock
  split
  · simp
  cases hi : s.ifc with
  | none => simp [tickCommand, hi]
  | some i =>
    rcases tickCommand_cases h hi with ⟨-, hk⟩ | ⟨_, _, -, -, hk⟩ | ⟨_, _, _, hk⟩ <;> simp [hk]

theorem readReg_fault {r : HostReg} {f : Fault} (hf : readReg r s = .fault f) :
    r = .rdata ∧ f = .rdataHasNoValue ∧ s.rdata = none := by
  cases r with
  | rdata =>
    cases hd : s.rdata with
    | none => simpa [readReg_rdata_of_none hd, eq_comm] using hf
    | some b => simp [readReg_rdata_of_some hd] at hf
  | _ => simp [readReg] at hf

theorem hostStep_fault {a : HostAction} {f : Fault} (h : s.Inv) (hf : hostStep a s = .fault f) :
    a = .read .rdata ∧ f = .rdataHasNoValue ∧ s.rdata = none := by
  cases a with
  | call w => exact absurd hf (callCmd_ne_fault w s f)
  | write r w => exact absurd hf (writeReg_ne_fault r w s f)
  | read r => simpa using readReg_fault hf
  | tick => exact absurd hf (tickBlock_ne_fault h f)
  | assertReset => cases hf
  | releaseReset => cases hf

/-- Settles O50: of the host's actions only the read of `RDATA` faults from a good state; a tick does not. -/
theorem goodStatesFaultOnlyOnAnEmptyRdata : Obligations.GoodStatesFaultOnlyOnAnEmptyRdata := by
  intro s f h hf
  unfold step at hf
  split at hf
  · exact absurd hf (tickBlock_ne_fault h f)
  · next a rest hh =>
    obtain ⟨rfl, hf, hd⟩ := hostStep_fault (h.withHostView _ s.hostData s.pinReads) hf
    exact ⟨hf, hd, rest, hh⟩

/-! ## What instructions leave of the state -/

/-- Settles O29: a completed instruction ran to the end of its micro-program, and the rows are what that leaves. -/
theorem accessMatrixOfCompletedCommands : Obligations.AccessMatrixOfCompletedCommands := by
  intro i s t hn hb
  obtain ⟨-, hw, -⟩ := exec_next hn
  obtain ⟨tr, q, hq, -, ⟨r, d, rfl, rfl⟩ | ⟨-, -, rfl⟩⟩ := exec_cases hn
  · obtain ⟨hres, hoe, hsbit, hkeep, hfail, hbyte⟩ := program_leaves hq
    refine ⟨hres, fun l => ?_, fun h => ?_, fun h => ?_, fun h hok => ?_, fun hne => ?_⟩
    · simpa using hoe s.oe l
    · simpa using hsbit h s.sbit
    · simp [hkeep h]
    · obtain ⟨b, rfl⟩ := Option.isSome_iff_exists.1 (hbyte hw h hok)
      rfl
    · obtain ⟨rfl, hlast⟩ := hfail hne
      exact ⟨by simp, by simpa using hlast s.sbit⟩
  · simp at hb

/-- Settles O30: an instruction that answers a next state is midway, or completed from there. -/
theorem frameOfEveryInstruction : Obligations.FrameOfEveryInstruction := by
  intro i s t hn
  obtain ⟨tr, q, hq, ha, ⟨r, d, rfl, rfl⟩ | ⟨-, -, rfl⟩⟩ := exec_cases hn
  · obtain ⟨-, -, -, hkeep, -, -⟩ := program_leaves hq
    exact ⟨tr, by simp, ha, by simp, by simp, fun h => by simp [hkeep h], sameOutside_midway⟩
  · exact ⟨tr, by simp, ha, by simp, by simp, by simp, sameOutside_midway⟩

/-! ## The command in flight -/

/-- Settles O37: the issued command has its whole micro-program pending, and running that is taking it tick by tick. -/
theorem bigStepIsManyMicroSteps : Obligations.BigStepIsManyMicroSteps := by
  intro i s t hn
  obtain ⟨-, hw, rfl⟩ := exec_next hn
  have hp : (s.issue (i.expand s.params)).pending (i.expand s.params) = some (program s.params i) :=
    (pending_midway (tr := [])).trans (Prog.after_nil _)
  obtain ⟨n, hle, hticks⟩ := Prog.run_eq_ticks _ _ _ (program_unfinished s.params i) rfl hp (Nat.zero_le _)
  exact ⟨n, hle.trans (maxOps_program_le s.params hw), hticks⟩

/-- Settles O38, by what a tick can do: hang, go on or complete. -/
theorem tickPerformsOneMicroOperation : Obligations.TickPerformsOneMicroOperation := by
  intro s i h hi
  rcases tickCommand_cases h hi with ⟨hh, hk⟩ | ⟨m, q, -, -, hk⟩ | ⟨m, r, d, hk⟩
  · exact ⟨s, hk, .inl ⟨rfl, hh⟩⟩
  · exact ⟨_, hk, .inr ⟨⟨m, by simp⟩, fun _ => by simp [hi]⟩⟩
  · exact ⟨_, hk, .inr ⟨⟨m, by simp⟩, by simp⟩⟩

/-- A write of a legal word while nothing is in flight issues it (R20). -/
theorem writeCmd_of_decode {w : CmdWord} (hr : s.resetAsserted = false) (hb : s.busy = false) (hd : decode w = .ok i) :
    writeCmd w s = .next (s.issue i) := by simp [writeCmd, hr, hb, hd]

/-- Settles O39: the write issues the decoded command, and what issuing changes is known field by field. -/
theorem writingCmdIssuesTheCommand : Obligations.WritingCmdIssuesTheCommand := by
  intro w i s hd hb hr
  exact ⟨s.issue i, writeCmd_of_decode hr hb hd, rfl, rfl, rfl, rfl, by simp, rfl, rfl, rfl, by simp [sameOutside]⟩

theorem illegalCommand_of_busy (hb : s.busy = true) : illegalCommand s = .refused .commandWhileBusy := if_pos hb

theorem callCmd_of_busy (hr : s.resetAsserted = false) (hb : s.busy = true) (w : CmdWord) :
    callCmd w s = .refused .commandWhileBusy := by
  cases hd : decode w with
  | error e => simp [callCmd, hr, hd, illegalCommand_of_busy hb]
  | ok i => rw [callCmd_of_decode hr hd, exec_of_busy hb]

theorem writeCmd_of_busy (hr : s.resetAsserted = false) (hb : s.busy = true) (w : CmdWord) :
    writeCmd w s = .refused .commandWhileBusy := by
  cases hd : decode w with
  | error e => simp [writeCmd, hr, hd, illegalCommand_of_busy hb]
  | ok i => simp [writeCmd, hr, hd, hb]

/-- Settles O40: every way to issue a command tests `BUSY` before anything else, but for the reset input. -/
theorem commandsWhileBusyAreRefused : Obligations.CommandsWhileBusyAreRefused :=
  fun i w _ hb => ⟨exec_of_busy hb i, fun hr => ⟨callCmd_of_busy hr hb w, writeCmd_of_busy hr hb w⟩⟩

/-! ## The registers -/

/-- Settles O42: the layout is that of every byte put together as `STATUS` is, whatever the fields are. -/
theorem statusByteLayout : Obligations.StatusByteLayout := by
  intro s
  unfold State.status
  generalize s.busy = busy, s.err.code = code, s.sbit = sbit
  revert busy code sbit
  decide

/-- Settles O43: the layout is that of every byte put together as `LINES` is, whatever the levels are. -/
theorem linesIsAViewAndNoSample : Obligations.LinesIsAViewAndNoSample := by
  intro s
  refine ⟨s.linesView, rfl, ?_⟩
  unfold State.linesView
  generalize s.oeScl = scl, s.oeSda = sda, s.pin .scl = sclIn, s.pin .sda = sdaIn
  revert scl sda sclIn sdaIn
  decide

/-- Settles O44: each access is its arm of the register port. -/
theorem hostRegisterAccesses : Obligations.HostRegisterAccesses := by
  intro s w
  exact ⟨rfl, fun b hd => readReg_rdata_of_some hd, fun hd => readReg_rdata_of_none hd, rfl, rfl, rfl, rfl⟩

/-- Settles O45: with no action pending and nothing in flight a step is a tick that changes nothing. -/
theorem resetValues : Obligations.ResetValues :=
  ⟨rfl, rfl, rfl, rfl, rfl, by decide, rfl, rfl, rfl, rfl, rfl⟩

end Sys2Proof.Machine
end

section
/-! PROOFS. The memory statements (20_memory.md): the order of bits on the wire, what a step runs and leaves, the wires, and the
sensor. -/

namespace Sys2Proof.Machine

variable {s t u : State} {i : Instr} {h tr₁ tr₂ : List MicroOp}

/-! ## Bits and bytes (R35, R37) -/

/-- Seven bits with one more below them: shifted left, the new one in bit 0. -/
theorem append_ofBool (a : BitVec 7) (v : Bool) :
    a ++ BitVec.ofBool v = (a.setWidth 8) <<< 1 ||| (if v then 1#8 else 0#8) := by
  apply BitVec.eq_of_getElem_eq
  intro k hk
  rw [BitVec.getElem_append]
  rcases k with _ | k
  · cases v <;> simp
  · cases v <;> simp [BitVec.getLsbD_eq_getElem, show k < 7 by omega]

/-- What a list of bits leaves of the accumulator: bit `k` of it has moved up by the number of bits shifted in, and below it stand
the bits, the last one in bit 0 (R35). -/
theorem foldl_shiftIn_getElem (bits : List Bool) (acc : Byte) (k : Nat) (hk : k < 8) :
    (bits.foldl shiftIn acc)[k] =
      if hb : k < bits.length then bits[bits.length - 1 - k] else acc[k - bits.length] := by
  induction bits generalizing acc with
  | nil => simp
  | cons bit bits ih =>
    rw [List.foldl_cons, ih]
    rcases Nat.lt_trichotomy k bits.length with hlt | rfl | hgt
    · simp [hlt, Nat.lt_succ_of_lt hlt, List.getElem_cons, show bits.length - k ≠ 0 by omega, Nat.sub_right_comm]
    · simp [shiftIn_getElem]
    · simp [shiftIn_getElem, hgt.not_gt, show ¬k < bits.length + 1 by omega, show k - bits.length ≠ 0 by omega, Nat.sub_sub]

/-- The bits of a byte in the order they are sent: bit 7 first. -/
theorem bitsMsbFirst_getElem? (b : Byte) (k : Fin 8) : (bitsMsbFirst b)[k.val]? = some (b.getLsbD (7 - k.val)) := by
  fin_cases k <;> rfl

/-- Eight bits shifted in leave nothing of the accumulator. -/
theorem foldl_shiftIn_of_eight {bits : List Bool} (hl : bits.length = 8) (acc : Byte) :
    bits.foldl shiftIn acc = byteOfBits bits := by
  apply BitVec.eq_of_getElem_eq
  intro k hk
  simp [byteOfBits, foldl_shiftIn_getElem, hl, hk]

/-- The shift-in step drops bit 7 and puts the new bit below the others (R35). -/
theorem shiftIn_eq (acc : Byte) (bit : Bool) : shiftIn acc bit = acc <<< 1 ||| (if bit then 1#8 else 0#8) := by
  rw [shiftIn, append_ofBool]
  congr 1
  ext k hk
  rcases k with _ | k
  · simp
  · simp [BitVec.getLsbD_eq_getElem, show k < 7 by omega, show k < 8 by omega]

/-- Settles O24: the accumulator is forgotten, and from 0 the bits spell the byte. -/
theorem receivingTheSentBitsGivesTheByte : Obligations.ReceivingTheSentBitsGivesTheByte := by
  refine ⟨shiftIn_eq, fun b => ⟨fun acc => ?_, rfl, bitsMsbFirst_getElem? b⟩⟩
  rw [foldl_shiftIn_of_eight rfl, byteOfBits_bitsMsbFirst]

/-- Settles O25: the address byte is the address with the direction below it. -/
theorem addressBytesCarryTheDirection : Obligations.AddressBytesCarryTheDirection := by
  intro p
  have hw : addrW p = (p.addr7.setWidth 8) <<< 1 := by
    rw [addrW, addrByte, append_ofBool]
    simp
  have hr : addrR p = (p.addr7.setWidth 8) <<< 1 ||| 1#8 := by
    rw [addrR, addrByte, append_ofBool]
    simp
  refine ⟨hw, hr, ?_⟩
  rw [hr, hw, BitVec.add_eq_or_of_and_eq_zero]
  ext k hk
  rcases k with _ | k <;> simp

/-! ## What a step runs -/

/-- A table word that decodes is the command word of its bits. -/
theorem decode_of_decodeTableWord {nbits w : Nat} (h : decodeTableWord nbits w = some i) :
    decode (BitVec.ofNat 24 (w % 2 ^ nbits)) = .ok i := by
  unfold decodeTableWord at h
  split at h
  · generalize decode _ = d at h ⊢
    cases d with
    | ok j => simpa [Except.toOption] using h
    | error e => cases h
  · cases h

/-- Settles O47: taking the action off the host's list is what `withFetchWord` undoes. -/
theorem stepRunsTheDecodedInstruction : Obligations.StepRunsTheDecodedInstruction := by
  refine ⟨fun s w rest i hh hr hd => ?_, fun s nbits w i hd => ?_, fun s hh hr => ?_⟩
  · rw [step, hh]
    exact callCmd_of_decode hr hd
  · exact callCmd_of_decode (s := { s with resetAsserted := false }) rfl (decode_of_decodeTableWord hd)
  · rw [step, hh]
    exact tickBlock_of_released hr

/-! ## What no step changes -/

@[simp] theorem Prog.settle_params (p : Prog) (s : State) : (p.settle s).params = s.params := by cases p <;> rfl
@[simp] theorem Prog.settle_bus (p : Prog) (s : State) : (p.settle s).bus = s.bus := by cases p <;> rfl

/-- One step of a micro-program, at its end too, changes neither. -/
theorem Prog.stepOne_keeps_setting (p : Prog) (s : State) :
    (p.stepOne s).params = s.params ∧ (p.stepOne s).bus = s.bus := by
  cases hu : p.unfinished with
  | true => rcases Prog.stepOne_cases hu s with ⟨-, hs⟩ | ⟨m, q, -, hs⟩ <;> simp [hs]
  | false =>
    cases p with
    | finish r d => exact ⟨rfl, rfl⟩
    | _ => cases hu

theorem tickCommand_keeps_setting (hn : tickCommand s = .next t) : t.params = s.params ∧ t.bus = s.bus := by
  unfold tickCommand at hn
  split at hn
  · cases hn
    exact ⟨rfl, rfl⟩
  split at hn <;> cases hn
  exact Prog.stepOne_keeps_setting _ s

theorem exec_keeps_setting (hn : exec i s = .next t) : t.params = s.params ∧ t.bus = s.bus := by
  obtain ⟨_, -, -, -, -, -, hp, hb, -⟩ := frameOfEveryInstruction i s t hn
  exact ⟨hp, hb⟩

theorem illegalCommand_keeps_setting (hn : illegalCommand s = .next t) : t.params = s.params ∧ t.bus = s.bus := by
  unfold illegalCommand at hn
  split at hn <;> cases hn
  exact ⟨rfl, rfl⟩

theorem callCmd_keeps_setting {w : CmdWord} (hn : callCmd w s = .next t) : t.params = s.params ∧ t.bus = s.bus := by
  unfold callCmd at hn
  split at hn
  · cases hn
    exact ⟨rfl, rfl⟩
  split at hn
  · exact illegalCommand_keeps_setting hn
  · exact exec_keeps_setting hn

theorem writeReg_keeps_setting {r : HostReg} {w : CmdWord} (hn : writeReg r w s = .next t) :
    t.params = s.params ∧ t.bus = s.bus := by
  cases r with
  | cmd =>
    rw [writeReg, writeCmd] at hn
    split at hn
    · cases hn
      exact ⟨rfl, rfl⟩
    split at hn
    · exact illegalCommand_keeps_setting hn
    split at hn <;> cases hn
    exact ⟨rfl, rfl⟩
  | _ =>
    cases hn
    exact ⟨rfl, rfl⟩

theorem readReg_keeps_setting {r : HostReg} (hn : readReg r s = .next t) : t.params = s.params ∧ t.bus = s.bus := by
  cases r with
  | rdata =>
    rw [readReg] at hn
    split at hn <;> cases hn
    exact ⟨rfl, rfl⟩
  | cmd => cases hn
  | _ =>
    cases hn
    exact ⟨rfl, rfl⟩

theorem tickBlock_keeps_setting (hn : tickBlock s = .next t) : t.params = s.params ∧ t.bus = s.bus := by
  unfold tickBlock at hn
  split at hn
  · cases hn
    exact ⟨rfl, rfl⟩
  · exact tickCommand_keeps_setting hn

theorem hostStep_keeps_setting {a : HostAction} (hn : hostStep a s = .next t) : t.params = s.params ∧ t.bus = s.bus := by
  cases a with
  | call w => exact callCmd_keeps_setting hn
  | write r w => exact writeReg_keeps_setting hn
  | read r => exact readReg_keeps_setting hn
  | tick => exact tickBlock_keeps_setting hn
  | _ =>
    cases hn
    exact ⟨rfl, rfl⟩

/-- Settles O51: each of the host's actions, and a tick where none is pending, leaves both. -/
theorem noStepChangesTheParameters : Obligations.NoStepChangesTheParameters := by
  intro s t hn
  unfold step at hn
  split at hn
  · exact hostStep_keeps_setting hn
  · have hkeep := hostStep_keeps_setting hn
    exact hkeep

/-! ## START and STOP -/

/-- `Start()` has no byte transfer, so it cannot hang: what follows it runs after the trace that the clock sample
selects (R67). -/
theorem run_startProc {k : Result → Prog} {v : Bool} (ha : s.answers (startTrace v) = true) :
    (startProc k).run s = (k (startResult v)).run (s.performAll (startTrace v)) := by
  have hv := (answersAgree_startTrace ..).1 ha
  simp [startProc, Prog.run, State.stallsIn, State.level, State.release, State.pullLow, hv, startTrace, State.perform]

/-- Nor can `Stop()`, which has no sample either (R68). -/
theorem run_stopProc (k : Prog) (s : State) : (stopProc k).run s = k.run (s.performAll stopTrace) := rfl

/-- Issued while `BUSY` is 0, a well-formed instruction runs its micro-program (R20). -/
theorem exec_of_not_busy (hb : s.busy = false) (hw : i.wellFormed = true) :
    exec i s = .next ((program s.params i).run (s.issue (i.expand s.params))) := by
  simp [exec_eq_runCommand hw, runCommand, hb]

/-- `START` performs the trace that the clock sample selects (R67). -/
theorem exec_start_of_answers {v : Bool} (hb : s.busy = false) (ha : s.answers (startTrace v) = true) :
    exec .start s = .next ((s.midway .start (startTrace v)).complete (startResult v) none) := by
  rw [exec_of_not_busy hb rfl, program, progStart, run_startProc (s := s.issue _) ha, orRaise_startResult]
  rfl

/-- `STOP` performs its trace (R68). -/
theorem exec_stop_of_not_busy (hb : s.busy = false) :
    exec .stop s = .next ((s.midway .stop stopTrace).complete .ok none) := by
  rw [exec_of_not_busy hb rfl, program, progStop, run_stopProc]
  rfl

/-- Two commands completed one after the other performed the two traces, and the second gave the result. -/
theorem completed_trans {r₁ r₂ : Result} (h₁ : completed s t tr₁ r₁) (h₂ : completed t u tr₂ r₂) :
    completed s u (tr₁ ++ tr₂) r₂ := by
  simp_all [completed, sameOutside]

/-- Settles O56: `START` completes whatever its sample, and `STOP` ends with both lines released. -/
theorem emptyTransactionReleasesTheLines : Obligations.EmptyTransactionReleasesTheLines := by
  intro s hb
  obtain ⟨v, ha⟩ : ∃ v, s.answers (startTrace v) = true := exists_startTrace ..
  obtain ⟨u, hu, hdone⟩ : ∃ u, exec .start s = .next u ∧ completed s u (startTrace v) (startResult v) :=
    ⟨_, exec_start_of_answers hb ha, completed_midway ..⟩
  have hstop := exec_stop_of_not_busy hdone.1
  have hdone := completed_trans hdone (completed_midway u .stop stopTrace .ok none)
  refine ⟨v, _, ?_, hdone, fun l => ?_⟩
  · simp only [execAll, hu, hstop]
  · simp

/-! ## The wires (R34, R73) -/

/-- With no other driver a line is high exactly when the block does not drive it low (R33). -/
@[simp] theorem wireLevel_noOthers (h : List MicroOp) (l : Line) : wireLevel noOthers h l = !drivenAfter h l := by
  simp [wireLevel, noOthers]

/-- A data bit sent is that bit on the wires, whatever level the data line had (R69, R73). -/
theorem symbols_bitTrace (hd : drivenAfter h .scl = true) (bit : Bool) :
    symbols noOthers h (bitTrace bit) = [.dataBit bit] := by
  cases bit <;>
    simp [bitTrace, symbols, conditionAhead, symbolOf, wireLevels, drivenAfter_append, drivenFrom, hd]

theorem drivenFrom_bitTrace_scl (d bit : Bool) : drivenFrom d (bitTrace bit) .scl = true := by cases bit <;> rfl

theorem drivenAfter_bits_scl (hd : drivenAfter h .scl = true) (bits : List Bool) :
    drivenAfter (h ++ bits.flatMap bitTrace) .scl = true := by
  induction bits generalizing h with
  | nil => simpa using hd
  | cons bit bits ih =>
    rw [List.flatMap_cons, ← List.append_assoc]
    exact ih ((drivenAfter_append ..).trans (drivenFrom_bitTrace_scl ..))

theorem symbols_bits (hd : drivenAfter h .scl = true) (bits : List Bool) :
    symbols noOthers h (bits.flatMap bitTrace) = bits.map .dataBit := by
  induction bits generalizing h with
  | nil => rfl
  | cons bit bits ih =>
    have hbit : drivenAfter (h ++ bitTrace bit) .scl = true := (drivenAfter_append ..).trans (drivenFrom_bitTrace_scl ..)
    rw [List.flatMap_cons, symbols_append hbit, symbols_bitTrace hd, ih hbit]
    rfl

/-- Releasing the data line while the clock is low makes no symbol. -/
theorem symbols_release_sda (hd : drivenAfter h .scl = true) : symbols noOthers h [.release .sda] = [] := by
  simp [symbols, symbolOf, wireLevels, drivenAfter_append, drivenFrom, hd]

/-- A clock pulse on the released data line is a bit 1 on the wires, whatever was sampled in it (R66, R73). -/
theorem symbols_sampledBitTrace (hd : drivenAfter h .scl = true) (hr : drivenAfter h .sda = false) (bit : Bool) :
    symbols noOthers h (sampledBitTrace bit) = [.dataBit true] := by
  simp [sampledBitTrace, symbols, conditionAhead, symbolOf, wireLevels, drivenAfter_append, drivenFrom, hd, hr]

theorem symbols_sampledBits (hd : drivenAfter h .scl = true) (hr : drivenAfter h .sda = false) (bits : List Bool) :
    symbols noOthers h (bits.flatMap sampledBitTrace) = List.replicate bits.length (.dataBit true) := by
  induction bits generalizing h with
  | nil => rfl
  | cons bit bits ih =>
    have hd' : drivenAfter (h ++ sampledBitTrace bit) .scl = true := drivenAfter_append ..
    have hr' : drivenAfter (h ++ sampledBitTrace bit) .sda = false := (drivenAfter_append ..).trans hr
    rw [List.flatMap_cons, symbols_append hd', symbols_sampledBitTrace hd hr, ih hd' hr']
    rfl

/-- Slots: the data line released, then clock pulses in which it is sampled. -/
theorem symbols_released_slots (hd : drivenAfter h .scl = true) (bits : List Bool) :
    symbols noOthers h ([.release .sda] ++ bits.flatMap sampledBitTrace) = List.replicate bits.length (.dataBit true) := by
  have hd' : drivenAfter (h ++ [.release .sda]) .scl = true := (drivenAfter_append ..).trans hd
  have hr : drivenAfter (h ++ [.release .sda]) .sda = false := drivenAfter_append ..
  rw [symbols_append hd', symbols_release_sda hd, symbols_sampledBits hd' hr, List.nil_append]

/-- A sent byte is its eight bits and then the released acknowledgment slot (R69, R73). -/
theorem symbols_sendTrace (hd : drivenAfter h .scl = true) (b : Byte) (ack : Bool) :
    symbols noOthers h (sendTrace b ack) = (bitsMsbFirst b ++ [true]).map .dataBit := by
  have hd' := drivenAfter_bits_scl hd (bitsMsbFirst b)
  calc symbols noOthers h (sendTrace b ack)
      = symbols noOthers h ((bitsMsbFirst b).flatMap bitTrace ++ ([.release .sda] ++ [ack].flatMap sampledBitTrace)) := rfl
    _ = (bitsMsbFirst b).map .dataBit ++ List.replicate 1 (.dataBit true) := by
      rw [symbols_append hd', symbols_bits hd, symbols_released_slots hd']; rfl
    _ = (bitsMsbFirst b ++ [true]).map .dataBit := by simp

/-- Settles O54: a received byte is eight released slots, and the acknowledgment steps are data bits sent. -/
theorem bitsOnTheWires : Obligations.BitsOnTheWires := fun _ b ack hd =>
  ⟨symbols_sendTrace hd b ack, symbols_released_slots hd (bitsMsbFirst b), symbols_bitTrace hd false,
    symbols_bitTrace hd true⟩

/-! ## Successful traces of the sequencer (R78, R82) -/

/-- What `WRCMD` performs up to the acknowledged command code, when every step succeeds (R78). -/
def wrcmdAddressed (p : Params) (code : Byte) : List MicroOp :=
  startTrace false ++ sendTrace (addrW p) false ++ sendTrace code false

theorem after_stopProc_of_finish (r : Result) (d : Option Byte) :
    (stopProc (.finish r d)).after stopTrace = some (.finish r d) := rfl

/-- With `CMD_CONFIG` the payload is sent too (R80). -/
theorem after_progWrcmd_config (p : Params) (payload : Byte) :
    (progWrcmd p p.cmdConfig payload).after (wrcmdAddressed p p.cmdConfig ++ sendTrace payload false ++ stopTrace) =
      some (.finish .ok none) := by
  simp [progWrcmd, wrcmdAddressed, writeTail, sendsPayload, finishOk, after_stopProc_of_finish]

theorem after_progWrcmd_other (p : Params) {code : Byte} (hc : code ≠ p.cmdConfig) (payload : Byte) :
    (progWrcmd p code payload).after (wrcmdAddressed p code ++ stopTrace) = some (.finish .ok none) := by
  simp [progWrcmd, wrcmdAddressed, writeTail, sendsPayload, hc, finishOk, after_stopProc_of_finish]

theorem after_progRdreg (p : Params) (code : Byte) (vs : List Byte) :
    (progRdreg p code vs.length).after (rdregTrace p code vs) = some (.finish .ok vs.head?) := by
  simp [progRdreg, rdregTrace, rdregAddressed, after_receiveBytes, after_stopProc_of_finish]

/-- The command codes are distinct (R6). -/
theorem cmdStartConv_ne_cmdConfig (p : Params) : p.cmdStartConv ≠ p.cmdConfig := by
  have hvalid := p.valid
  simp only [paramsValid, Bool.and_eq_true, bne_iff_ne] at hvalid
  obtain ⟨⟨⟨hne, -⟩, -⟩, -⟩ := hvalid
  exact hne.symm

/-! ## The sensor (R33, R41) -/

section Wires
variable {low : List MicroOp → Line → Bool} {bound : List MicroOp → Prop} {bytes : List MicroOp → Byte → List Byte}
  {done : List MicroOp → Bool}

/-- On wired lines the bus is never busy at `Start()`: the block itself drives the clock low there (R92). -/
theorem State.wiredAnd.answers_start (hw : s.wiredAnd low) (h : List MicroOp) :
    answersAgree s.bus s.resets h (startTrace false) = true := by
  rw [answersAgree_startTrace, hw]
  exact wireLevel_of_driven (drivenAfter_append ..)

/-- A byte during whose ninth pulse the device pulls the data line low is acknowledged. -/
theorem State.wiredAnd.answers_send {b : Byte} (hw : s.wiredAnd low) (hl : low (h ++ sendPrefix b) .sda = true) :
    answersAgree s.bus s.resets h (sendTrace b false) = true := by
  rw [answersAgree_sendTrace, hw, wireLevel, hl]
  simp

/-- With the data line released the block samples what the device drives: a 0 where it pulls the line low. -/
theorem State.wiredAnd.answers_sampledBits {bits : List Bool} (hw : s.wiredAnd low) (hr : drivenAfter h .sda = false)
    (hl : ∀ (j : Nat) (v : Bool), bits[j]? = some v →
      low (h ++ (bits.take j).flatMap sampledBitTrace ++ [.release .scl]) .sda = !v) :
    answersAgree s.bus s.resets h (bits.flatMap sampledBitTrace) = true := by
  induction bits generalizing h with
  | nil => rfl
  | cons bit bits ih =>
    have hlevel : s.bus.level s.resets (h ++ [.release .scl]) .sda = bit := by
      have hlow : low (h ++ [.release .scl]) .sda = !bit := by simpa using hl 0 bit rfl
      have hrel : drivenAfter (h ++ [.release .scl]) .sda = false := (drivenAfter_append ..).trans hr
      simp [hw _ _, wireLevel, hlow, hrel]
    have hrest := ih (h := h ++ sampledBitTrace bit) ((drivenAfter_append ..).trans hr) fun j v hj => by
      simpa using hl (j + 1) v hj
    rw [List.flatMap_cons, answersAgree_append, hrest]
    simp [sampledBitTrace, answersAgree, hlevel]

theorem State.wiredAnd.answers_receive {b : Byte} (hw : s.wiredAnd low)
    (hl : ∀ j : Fin 8, low (h ++ [.release .sda] ++ ((bitsMsbFirst b).take j.val).flatMap sampledBitTrace ++
      [.release .scl]) .sda = !b.getLsbD (7 - j.val)) :
    answersAgree s.bus s.resets h (receiveTrace b) = true := by
  have hbits := hw.answers_sampledBits (h := h ++ [.release .sda]) (bits := bitsMsbFirst b) (drivenAfter_append ..)
    fun j v hj => by
      obtain ⟨hlt, -⟩ := List.getElem?_eq_some_iff.1 hj
      rw [bitsMsbFirst_getElem? b ⟨j, hlt⟩, Option.some.injEq] at hj
      rw [← hj]
      exact hl ⟨j, hlt⟩
  simpa [receiveTrace, answersAgree] using hbits

variable (hw : s.wiredAnd low) (hs : EnvSlave s.params bound low bytes done) (hi : idleAfter h) (hb : bound h)
include hw hs hi hb

/-- The sensor acknowledges its address and the three command codes. -/
theorem EnvSlave.answers_wrcmdAddressed {code : Byte}
    (hc : code ∈ [s.params.cmdConfig, s.params.cmdStartConv, s.params.cmdReadTemp]) :
    answersAgree s.bus s.resets h (wrcmdAddressed s.params code) = true := by
  rw [wrcmdAddressed, answersAgree_append, answersAgree_append, hw.answers_start, hw.answers_send, hw.answers_send]
  · rfl
  · simpa using hs.acks_code h hi hb code hc
  · simpa using hs.acks_address h hi hb

theorem EnvSlave.answers_configured :
    answersAgree s.bus s.resets h
      (wrcmdAddressed s.params s.params.cmdConfig ++ sendTrace s.params.oneShotPayload false ++ stopTrace) = true := by
  rw [answersAgree_append, answersAgree_append, hs.answers_wrcmdAddressed hw hi hb (by simp), hw.answers_send,
    answersAgree_stopTrace]
  · rfl
  · simpa [wrcmdAddressed] using hs.acks_payload h hi hb

theorem EnvSlave.answers_conversionStarted :
    answersAgree s.bus s.resets h (wrcmdAddressed s.params s.params.cmdStartConv ++ stopTrace) = true := by
  rw [answersAgree_append, hs.answers_wrcmdAddressed hw hi hb (by simp), answersAgree_stopTrace]
  rfl

/-- Addressed again for a read it acknowledges that too. -/
theorem EnvSlave.answers_rdregAddressed {code : Byte} (hc : code ∈ [s.params.cmdConfig, s.params.cmdReadTemp]) :
    answersAgree s.bus s.resets h (rdregAddressed s.params code) = true := by
  have hsub : [s.params.cmdConfig, s.params.cmdReadTemp] ⊆
      [s.params.cmdConfig, s.params.cmdStartConv, s.params.cmdReadTemp] := by simp
  have hcode := hs.answers_wrcmdAddressed hw hi hb (hsub hc)
  rw [wrcmdAddressed] at hcode
  rw [rdregAddressed, answersAgree_append, answersAgree_append, hcode, hw.answers_start, hw.answers_send]
  · rfl
  · simpa using hs.acks_read_address h hi hb code hc

/-- It answers the next byte of the register, when the block has received and acknowledged those before it. -/
theorem EnvSlave.answers_next_byte {code : Byte} (hc : code ∈ [s.params.cmdConfig, s.params.cmdReadTemp])
    {us vs : List Byte} {v : Byte} (hv : bytes h code = us ++ v :: vs) :
    answersAgree s.bus s.resets (h ++ readingTrace s.params code us) (receiveTrace v) = true := by
  refine hw.answers_receive fun j => ?_
  have hbit := hs.drives_bits h hi hb code hc us.length v (by simp [hv]) j
  simpa [hv] using hbit

/-- It answers the bytes of the register that are still to come. -/
theorem EnvSlave.answers_receivedTrace {code : Byte} (hc : code ∈ [s.params.cmdConfig, s.params.cmdReadTemp])
    {us vs : List Byte} (hv : bytes h code = us ++ vs) :
    answersAgree s.bus s.resets (h ++ readingTrace s.params code us) (receivedTrace vs) = true := by
  induction vs generalizing us with
  | nil => rfl
  | cons v vs ih =>
    have hnext := hs.answers_next_byte hw hi hb hc hv
    cases vs with
    | nil => rw [receivedTrace, answersAgree_append, hnext, answersAgree_nackTrace]; rfl
    | cons w vs =>
      have hrest := ih (us := us ++ [v]) (by simp [hv])
      rw [receivedTrace, answersAgree_append, answersAgree_append, hnext, answersAgree_ackTrace]
      simpa [readingTrace] using hrest

theorem EnvSlave.answers_rdregTrace {code : Byte} (hc : code ∈ [s.params.cmdConfig, s.params.cmdReadTemp]) :
    answersAgree s.bus s.resets h (rdregTrace s.params code (bytes h code)) = true := by
  have hrecv := hs.answers_receivedTrace hw hi hb hc (us := []) rfl
  rw [rdregTrace, answersAgree_append, answersAgree_append, hs.answers_rdregAddressed hw hi hb hc, answersAgree_stopTrace]
  simpa [readingTrace] using hrecv

end Wires

/-- Settles O60: the sensor's answers select the successful trace of each named command. -/
theorem namedCommandsSucceedWithTheSensor : Obligations.NamedCommandsSucceedWithTheSensor := by
  intro s bound low bytes done hb hn hw hs hi hbound
  obtain ⟨hstatus, htemp⟩ := hs.register_sizes s.history hi hbound
  obtain ⟨b, hb₁⟩ := List.length_eq_one_iff.1 hstatus
  obtain ⟨v, w, hb₂⟩ := List.length_eq_two.1 htemp
  have hreadStatus := hs.answers_rdregTrace hw hi hbound (code := s.params.cmdConfig) (by simp)
  have hreadTemp := hs.answers_rdregTrace hw hi hbound (code := s.params.cmdReadTemp) (by simp)
  rw [hb₁] at hreadStatus
  rw [hb₂] at hreadTemp
  have hdone := hs.status_is_done s.history hi hbound b (by rw [hb₁]; rfl)
  have hne := cmdStartConv_ne_cmdConfig s.params
  refine ⟨⟨_, exec_of_after hb rfl hn (after_progWrcmd_config ..) (hs.answers_configured hw hi hbound), rfl, rfl⟩,
    ⟨_, exec_of_after hb rfl hn (after_progWrcmd_other _ hne 0#8) (hs.answers_conversionStarted hw hi hbound), rfl, rfl⟩,
    ⟨_, b, exec_of_after hb rfl hn (after_progRdreg _ _ [b]) hreadStatus, rfl, rfl, hb₁, rfl, hdone⟩,
    ⟨_, v, w, exec_of_after hb rfl hn (after_progRdreg _ _ [v, w]) hreadTemp, rfl, rfl, hb₂, rfl⟩⟩

end Sys2Proof.Machine
end

section
/-! PROOFS. The encoding statements (30_encoding.md): the decoder against the encoder and against the opcode map, what
assembler lines assemble to, and what executing depends on in a word's fields. -/

namespace Sys2Proof

variable {p : Params} {w : CmdWord} {i : Instr} {mk : Line → Instr} {mkB : Byte → Instr} {mkR : Byte → Nat → Instr}

/-! ## Decoding an encoded instruction (R58) -/

theorem decodeL_wordOf (op : Byte) (l : Line) (mk : Line → Instr) :
    decodeL (wordOf op (bitByte (bitOfLine l)) 0#8) mk = .ok (mk l) :=
  decodeL_eq_ok.2 ⟨l, by simp, by simp, rfl⟩

theorem decodeN_wordOf (op : Byte) (i : Instr) : decodeN (wordOf op 0#8 0#8) i = .ok i :=
  decodeN_eq_ok.2 ⟨by simp, by simp, rfl⟩

theorem decodeB_wordOf (op a : Byte) (mk : Byte → Instr) : decodeB (wordOf op a 0#8) mk = .ok (mk a) :=
  decodeB_eq_ok.2 ⟨by simp, by simp⟩

theorem decodeW_wordOf (op a b : Byte) (mk : Byte → Byte → Instr) : decodeW (wordOf op a b) mk = .ok (mk a b) :=
  decodeW_eq_ok.2 (by simp)

theorem decodeR_wordOf (op a : Byte) (v : Bool) (mk : Byte → Nat → Instr) :
    decodeR (wordOf op a (bitByte v)) mk = .ok (mk a (byteCountOfBit v)) :=
  decodeR_eq_ok.2 ⟨v, by simp, by simp⟩

/-- The counts that the encoding can express come back (R52). -/
theorem byteCountOfBit_of_wellFormed {code : Byte} {n : Nat} (h : (Instr.rdreg code n).wellFormed = true) :
    byteCountOfBit (n != 1) = n := by
  obtain rfl | rfl : n = 1 ∨ n = 2 := by simpa [Instr.wellFormed] using h
  · rfl
  · rfl

/-- The opcode leads to the decoder of the command's own format, which gives the operands back. -/
theorem decode_encode_of_isCore (hc : i.isCore = true) (hw : i.wellFormed = true) : decode (encode p i) = .ok i := by
  cases i with
  | rel l => simp [encode, decode, decodeL_wordOf]
  | low l => simp [encode, decode, decodeL_wordOf]
  | smp l => simp [encode, decode, decodeL_wordOf]
  | start => simp [encode, decode, decodeN_wordOf]
  | stop => simp [encode, decode, decodeN_wordOf]
  | sendb byte => simp [encode, decode, decodeB_wordOf]
  | recvb => simp [encode, decode, decodeN_wordOf]
  | mack => simp [encode, decode, decodeN_wordOf]
  | mnack => simp [encode, decode, decodeN_wordOf]
  | wrcmd code payload => simp [encode, decode, decodeW_wordOf]
  | rdreg code n => simp [encode, decode, decodeR_wordOf, byteCountOfBit_of_wellFormed hw]
  | cfg1shot => cases hc
  | startconv => cases hc
  | rdstat => cases hc
  | rdtemp => cases hc

/-- A pseudo-command has the word of the command it stands for (R57). -/
@[simp] theorem encode_expand (p : Params) (i : Instr) : encode p (i.expand p) = encode p i := by cases i <;> rfl

/-- So its word decodes to that command. -/
theorem decode_encode (hw : i.wellFormed = true) : decode (encode p i) = .ok (i.expand p) := by
  rw [← encode_expand]
  exact decode_encode_of_isCore (expand_isCore p i) (by rwa [expand_wellFormed])

/-- Settles O1: an instruction's word is that of its expansion, one of the eleven commands. -/
theorem decodeOfEncodeIsTheCommand : Obligations.DecodeOfEncodeIsTheCommand :=
  fun _ _ hw => ⟨decode_encode hw, fun hc => decode_encode_of_isCore hc hw⟩

/-! ## Encoding a decoded word (R58) -/

theorem encode_of_decode (p : Params) (h : decode w = .ok i) : encode p i = w := by
  rcases decode_cases h with ⟨_, rfl, rfl⟩ | ⟨_, rfl, rfl⟩ | ⟨_, rfl, rfl⟩ | ⟨rfl, rfl⟩ | ⟨rfl, rfl⟩ | ⟨_, rfl, rfl⟩ |
    ⟨rfl, rfl⟩ | ⟨rfl, rfl⟩ | ⟨rfl, rfl⟩ | ⟨_, _, rfl, rfl⟩ | ⟨_, v, rfl, rfl⟩
  case inr.inr.inr.inr.inr.inr.inr.inr.inr.inr => cases v <;> rfl
  all_goals rfl

/-- Settles O2: a legal word holds its command's fields and nothing else. -/
theorem encodeOfDecodeIsTheWord : Obligations.EncodeOfDecodeIsTheWord :=
  fun p _ _ h => ⟨encode_of_decode p h, Machine.decode_isCore_wellFormed h⟩

/-! ## The rows of the opcode map (R49, R51) -/

/-- A row given by its fields is selected when every field has the row's value under the row's mask. -/
theorem selectsRow_wordOf (w : CmdWord) (op a b mop ma mb : Byte) :
    selectsRow w (wordOf op a b, wordOf mop ma mb) = true ↔
      fieldOp w &&& mop = op ∧ fieldA w &&& ma = a ∧ fieldB w &&& mb = b := by
  rw [selectsRow, beq_iff_eq, ← wordOf_inj, ← wordOf_and, wordOf_fields]

/-- What a row says of a word: its opcode, and the bits of the fields `a` and `b` that must be zero in its format (R49). -/
structure OpcodeRow where
  op : Byte
  zeroA : Byte
  zeroB : Byte

/-- The row as match and mask (R51). -/
def OpcodeRow.matchMask (r : OpcodeRow) : CmdWord × CmdWord := (wordOf r.op 0#8 0#8, wordOf 0xFF#8 r.zeroA r.zeroB)

/-- The rows of R51: must be zero are `FE FF` in format L, `FF FF` in N, `00 FF` in B, `00 00` in W, `00 FE` in R. -/
def opcodeFormats : List OpcodeRow :=
  [⟨0x01#8, 0xFE#8, 0xFF#8⟩, ⟨0x02#8, 0xFE#8, 0xFF#8⟩, ⟨0x03#8, 0xFE#8, 0xFF#8⟩, ⟨0x10#8, 0xFF#8, 0xFF#8⟩,
   ⟨0x11#8, 0xFF#8, 0xFF#8⟩, ⟨0x12#8, 0x00#8, 0xFF#8⟩, ⟨0x13#8, 0xFF#8, 0xFF#8⟩, ⟨0x14#8, 0xFF#8, 0xFF#8⟩,
   ⟨0x15#8, 0xFF#8, 0xFF#8⟩, ⟨0x20#8, 0x00#8, 0x00#8⟩, ⟨0x21#8, 0x00#8, 0xFE#8⟩]

theorem opcodeRows_eq : opcodeRows = opcodeFormats.map OpcodeRow.matchMask := by decide

/-- The mask that lets every bit through. -/
theorem and_ff (b : Byte) : b &&& 0xFF#8 = b := BitVec.and_allOnes

/-- Bits 7:1 are 0 exactly when nothing is left under the mask 0xFE. -/
theorem and_fe_eq_zero {b : Byte} : b &&& 0xFE#8 = 0#8 ↔ b.extractLsb' 1 7 = 0#7 := by revert b; decide

theorem selectsRow_matchMask {r : OpcodeRow} :
    selectsRow w r.matchMask = true ↔ fieldOp w = r.op ∧ fieldA w &&& r.zeroA = 0#8 ∧ fieldB w &&& r.zeroB = 0#8 := by
  rw [OpcodeRow.matchMask, selectsRow_wordOf, and_ff]

/-! A format accepts the words whose operand fields have none of its must-be-zero bits set. -/

theorem exists_decodeL : (∃ i, decodeL w mk = .ok i) ↔ fieldA w &&& 0xFE#8 = 0#8 ∧ fieldB w &&& 0xFF#8 = 0#8 := by
  rw [and_fe_eq_zero, and_ff, decodeL]
  split <;> simp_all
theorem exists_decodeN : (∃ j, decodeN w i = .ok j) ↔ fieldA w &&& 0xFF#8 = 0#8 ∧ fieldB w &&& 0xFF#8 = 0#8 := by
  simp [decodeN_eq_ok, and_ff]
theorem exists_decodeB : (∃ i, decodeB w mkB = .ok i) ↔ fieldA w &&& 0x00#8 = 0#8 ∧ fieldB w &&& 0xFF#8 = 0#8 := by
  simp [decodeB_eq_ok, and_ff]
theorem exists_decodeW {mk : Byte → Byte → Instr} :
    (∃ i, decodeW w mk = .ok i) ↔ fieldA w &&& 0x00#8 = 0#8 ∧ fieldB w &&& 0x00#8 = 0#8 := by
  simp [decodeW_eq_ok]
theorem exists_decodeR : (∃ i, decodeR w mkR = .ok i) ↔ fieldA w &&& 0x00#8 = 0#8 ∧ fieldB w &&& 0xFE#8 = 0#8 := by
  rw [and_fe_eq_zero, decodeR]
  split <;> simp_all

/-- One test of the decoder is one row of the map: where the opcode is the row's, the rows after it, which have other opcodes,
are not selected; where it is not, only they can be. -/
theorem exists_ite_iff_selectsRow {op za zb : Byte} {rows : List OpcodeRow} {x y : Except DecodeReject Instr}
    (hx : (∃ i, x = .ok i) ↔ fieldA w &&& za = 0#8 ∧ fieldB w &&& zb = 0#8) (hne : op ∉ rows.map OpcodeRow.op)
    (hy : (∃ i, y = .ok i) ↔ ∃ r ∈ rows, selectsRow w r.matchMask = true) :
    (∃ i, (if fieldOp w = op then x else y) = .ok i) ↔ ∃ r ∈ ⟨op, za, zb⟩ :: rows, selectsRow w r.matchMask = true := by
  rw [List.exists_mem_cons_iff, selectsRow_matchMask]
  split
  · next hop =>
    have hrest : ¬∃ r ∈ rows, selectsRow w r.matchMask = true := fun ⟨r, hr, hsel⟩ =>
      hne (List.mem_map.2 ⟨r, hr, (selectsRow_matchMask.1 hsel).1.symm.trans hop⟩)
    simp [hx, hop, hrest]
  · next hop => simp [hy, hop]

/-- A word is legal exactly when it selects a row: the decoder's tests are the rows, in their order. -/
theorem legal_iff_selectsRow (w : CmdWord) : (∃ i, decode w = .ok i) ↔ ∃ row ∈ opcodeRows, selectsRow w row = true := by
  simp only [opcodeRows_eq, List.mem_map, exists_exists_and_eq_and]
  unfold decode opcodeFormats
  refine exists_ite_iff_selectsRow exists_decodeL (by decide) ?_
  refine exists_ite_iff_selectsRow exists_decodeL (by decide) ?_
  refine exists_ite_iff_selectsRow exists_decodeL (by decide) ?_
  refine exists_ite_iff_selectsRow exists_decodeN (by decide) ?_
  refine exists_ite_iff_selectsRow exists_decodeN (by decide) ?_
  refine exists_ite_iff_selectsRow exists_decodeB (by decide) ?_
  refine exists_ite_iff_selectsRow exists_decodeN (by decide) ?_
  refine exists_ite_iff_selectsRow exists_decodeN (by decide) ?_
  refine exists_ite_iff_selectsRow exists_decodeN (by decide) ?_
  refine exists_ite_iff_selectsRow exists_decodeW (by decide) ?_
  refine exists_ite_iff_selectsRow exists_decodeR (by decide) ?_
  simp

/-- Every row masks the whole opcode, so a word that selects a row has the row's opcode. -/
theorem fieldOp_of_selectsRow {row : CmdWord × CmdWord} (hr : row ∈ opcodeRows) (h : selectsRow w row = true) :
    fieldOp w = fieldOp row.1 := by
  rw [opcodeRows_eq, List.mem_map] at hr
  obtain ⟨r, -, rfl⟩ := hr
  exact (selectsRow_matchMask.1 h).1.trans (fieldOp_wordOf ..).symm

/-- No opcode stands in two rows (R51). -/
theorem opcodeRows_fieldOp_injective :
    ∀ x y : Fin opcodeRows.length, fieldOp opcodeRows[x].1 = fieldOp opcodeRows[y].1 → x = y := by decide

/-- Settles O3: the decoder accepts what the rows allow, and the opcode tells the rows apart. -/
theorem legalWordsAreTheWordsOfOneRow : Obligations.LegalWordsAreTheWordsOfOneRow := by
  refine ⟨legal_iff_selectsRow, fun w x y hx hy => opcodeRows_fieldOp_injective x y ?_⟩
  have hopx := fieldOp_of_selectsRow (List.getElem_mem x.isLt) hx
  have hopy := fieldOp_of_selectsRow (List.getElem_mem y.isLt) hy
  exact hopx.symm.trans hopy

/-- Settles O4: each word is evaluated by the decoder. -/
theorem wordsFromTheTableDecode : Obligations.WordsFromTheTableDecode := by
  unfold Obligations.WordsFromTheTableDecode
  decide

end Sys2Proof

namespace Sys2Proof.Machine

variable {p : Params} {m : Mnemonic} {ops : List AsmOperand} {w : CmdWord} {s : State} {i j : Instr} {tr : List MicroOp}

/-! ## The assembler (R56, R57) -/

/-- The line bit as the byte that stands in field `a` (R50). -/
theorem bitByte_bitOfLine (l : Line) : bitByte (bitOfLine l) = if l = .sda then 1#8 else 0#8 := by cases l <;> rfl

/-- The bit that stands for an encodable count is `n - 1` (R52). -/
theorem bitByte_of_count {n : Nat} (h : n = 1 ∨ n = 2) : bitByte (n != 1) = BitVec.ofNat 8 (n - 1) := by
  obtain rfl | rfl := h <;> rfl

/-- A line assembles to the word of the command it stands for, and to nothing when it stands for none. -/
theorem assemble_of_parse (h : parseCommand p m ops = some i) : assemble p m ops = some (encode p i) := by
  rw [assemble, h, Option.map_some]
theorem assemble_of_parse_none (h : parseCommand p m ops = none) : assemble p m ops = none := by
  rw [assemble, h, Option.map_none]

theorem assemble_sendb (x : AsmOperand) :
    assemble p .sendb [x] = (x.byte? p).map fun b => wordOf 0x12#8 b 0#8 := by
  simp [assemble, parseCommand, oneOperand, encode, Function.comp_def]

theorem parseCommand_wrcmd {c d : AsmOperand} {code payload : Byte} (hc : c.byte? p = some code)
    (hd : d.byte? p = some payload) : parseCommand p .wrcmd [c, d] = some (.wrcmd code payload) := by
  simp [parseCommand, hc, hd]

theorem parseCommand_wrcmd_omitted {c : AsmOperand} {code : Byte} (hc : c.byte? p = some code) :
    parseCommand p .wrcmd [c] = if code = p.cmdConfig then none else some (.wrcmd code 0#8) := by
  simp [parseCommand, hc]

theorem parseCommand_rdreg {c : AsmOperand} {code : Byte} (hc : c.byte? p = some code) (n : Nat) :
    parseCommand p .rdreg [c, .number n] = if n = 1 ∨ n = 2 then some (.rdreg code n) else none := by
  simp only [parseCommand, hc, AsmOperand.count?, Option.bind_some]
  split <;> rfl

/-- A mnemonic without operands stands for nothing when operands follow it. -/
theorem parseCommand_of_operands (h : ops ≠ []) (hm : m ∈ [Mnemonic.start, .stop, .recvb, .mack, .mnack, .cfg1shot,
    .startconv, .rdstat, .rdtemp]) : parseCommand p m ops = none := by
  simp only [List.mem_cons, List.not_mem_nil, or_false] at hm
  rcases hm with rfl | rfl | rfl | rfl | rfl | rfl | rfl | rfl | rfl <;> exact if_neg h

theorem oneOperand_of_length_ne_one {α : Type} (f : AsmOperand → Option α) (h : ops.length ≠ 1) :
    oneOperand f ops = none := by
  rcases ops with _ | ⟨x, _ | ⟨y, ops⟩⟩
  · rfl
  · exact absurd rfl h
  · rfl

/-- A mnemonic with one operand stands for nothing with another number of them. -/
theorem parseCommand_of_length_ne_one (h : ops.length ≠ 1) (hm : m ∈ [Mnemonic.rel, .low, .smp, .sendb]) :
    parseCommand p m ops = none := by
  simp only [List.mem_cons, List.not_mem_nil, or_false] at hm
  rcases hm with rfl | rfl | rfl | rfl <;> simp [parseCommand, oneOperand_of_length_ne_one _ h]

theorem count_of_count? {x : AsmOperand} {n : Nat} (h : x.count? = some n) : n = 1 ∨ n = 2 := by
  cases x with
  | number k =>
    obtain ⟨hk, hkn⟩ := Option.ite_none_right_eq_some.1 h
    obtain rfl := Option.some.inj hkn
    exact hk
  | _ => cases h

/-- Only a line `RDREG` stands for an `RDREG`, and its count is checked. -/
theorem count_of_parseCommand {code : Byte} {n : Nat} (h : parseCommand p m ops = some (.rdreg code n)) : n = 1 ∨ n = 2 := by
  cases m with
  | rdreg =>
    simp only [parseCommand] at h
    split at h
    · simp only [Option.bind_eq_some_iff, Option.map_eq_some_iff, Instr.rdreg.injEq] at h
      obtain ⟨_, -, _, hcount, -, rfl⟩ := h
      exact count_of_count? hcount
    · contradiction
  | wrcmd =>
    simp only [parseCommand] at h
    split at h
    · simp [Option.bind_eq_some_iff] at h
    · simp [Option.bind_eq_some_iff] at h
    · contradiction
  | _ => simp [parseCommand] at h

/-- Every command a line stands for can be encoded: the count of `RDREG` is the one operand that might not be. -/
theorem wellFormed_of_parseCommand (h : parseCommand p m ops = some i) : i.wellFormed = true := by
  cases i with
  | rdreg code n => simpa [Instr.wellFormed] using count_of_parseCommand h
  | _ => rfl

theorem decode_of_assemble (h : assemble p m ops = some w) :
    ∃ i, parseCommand p m ops = some i ∧ i.wellFormed = true ∧ decode w = .ok (i.expand p) := by
  obtain ⟨i, hi, rfl⟩ := Option.map_eq_some_iff.1 h
  have hw := wellFormed_of_parseCommand hi
  exact ⟨i, hi, hw, decode_encode hw⟩

/-- The forms with one line operand (format L). -/
theorem assemble_line (p : Params) (l : Line) :
    assemble p .rel [.line l] = some (wordOf 0x01#8 (if l = .sda then 1#8 else 0#8) 0#8) ∧
    assemble p .low [.line l] = some (wordOf 0x02#8 (if l = .sda then 1#8 else 0#8) 0#8) ∧
    assemble p .smp [.line l] = some (wordOf 0x03#8 (if l = .sda then 1#8 else 0#8) 0#8) := by
  rw [← bitByte_bitOfLine]
  exact ⟨rfl, rfl, rfl⟩

theorem assemble_wrcmd_omitted {c : AsmOperand} {code : Byte} (hc : c.byte? p = some code) :
    assemble p .wrcmd [c] = if code = p.cmdConfig then none else some (wordOf 0x20#8 code 0#8) := by
  rw [assemble, parseCommand_wrcmd_omitted hc]
  split <;> rfl

theorem assemble_rdreg {c : AsmOperand} {code : Byte} (hc : c.byte? p = some code) (n : Nat) :
    assemble p .rdreg [c, .number n] =
      if n = 1 ∨ n = 2 then some (wordOf 0x21#8 code (BitVec.ofNat 8 (n - 1))) else none := by
  rw [assemble, parseCommand_rdreg hc]
  split
  · next h =>
    rw [← bitByte_of_count h]
    rfl
  · rfl

/-- Settles O5, form by form: a line is parsed and its command encoded. -/
theorem linesAssembleToTheWordsOfTheirForm : Obligations.LinesAssembleToTheWordsOfTheirForm := by
  intro p
  have hsmall : ∀ n < 256, AsmOperand.byte? p (.number n) = some (BitVec.ofNat 8 n) := fun n hn => if_pos hn
  have hlarge : ∀ n ≥ 256, AsmOperand.byte? p (.number n) = none := fun n hn => if_neg (by omega)
  exact ⟨assemble_line p,
    ⟨rfl, rfl, rfl, rfl, rfl⟩,
    ⟨hsmall, hlarge, fun _ => rfl, rfl, rfl, rfl, rfl⟩,
    assemble_sendb,
    fun _ _ _ _ hc hd => assemble_of_parse (parseCommand_wrcmd hc hd),
    fun _ _ hc => assemble_wrcmd_omitted hc,
    fun _ _ n hc => assemble_rdreg hc n,
    ⟨rfl, rfl, rfl, rfl⟩,
    fun _ h _ hm => assemble_of_parse_none (parseCommand_of_operands h hm),
    fun _ h _ hm => assemble_of_parse_none (parseCommand_of_length_ne_one h hm),
    fun _ _ _ => decode_of_assemble⟩

/-! ## What executing depends on -/

/-- Which command is in flight changes nothing of a trace but `IFC`. -/
theorem performAll_withIfc (s : State) (f : Option Instr) (tr : List MicroOp) :
    { s with ifc := f }.performAll tr = { s.performAll tr with ifc := f } := by
  induction tr generalizing s with
  | nil => rfl
  | cons m tr ih =>
    have hm : { s with ifc := f }.perform m = { s.perform m with ifc := f } := by
      rcases m with (_ | _) | (_ | _) | _ <;> rfl
    rw [State.performAll_cons, hm, ih, State.performAll_cons]

/-- A command that has completed leaves no sign of which it was but its trace, its result and its byte. -/
theorem complete_midway_eq (s : State) (i j : Instr) (tr : List MicroOp) (r : Result) (d : Option Byte) :
    (s.midway i tr).complete r d = (s.midway j tr).complete r d := by
  have hissue : s.issue (i.expand s.params) = { s.issue (j.expand s.params) with ifc := some (i.expand s.params) } := rfl
  rw [State.midway, hissue, performAll_withIfc]
  rfl

/-- The payload is no part of the micro-program of another code (R80). -/
theorem progWrcmd_of_other {code : Byte} (hc : code ≠ p.cmdConfig) (x y : Byte) :
    progWrcmd p code x = progWrcmd p code y := by
  simp [progWrcmd, writeTail, sendsPayload, hc]

/-- Settles O17: the two commands have one micro-program, and completing forgets the payload in `IFC`. -/
theorem wrcmdIgnoresThePayloadOfOtherCodes : Obligations.WrcmdIgnoresThePayloadOfOtherCodes := by
  intro code x y s hb hn hc
  obtain ⟨tr, r, d, hx, hans, -⟩ := Prog.run_completes (progWrcmd s.params code x) hn
  have hy := progWrcmd_of_other hc x y ▸ hx
  have hexec := exec_of_after (i := .wrcmd code y) hb rfl hn hy hans
  rw [complete_midway_eq s (.wrcmd code y) (.wrcmd code x)] at hexec
  exact ⟨_, exec_of_after (i := .wrcmd code x) hb rfl hn hx hans, hexec, rfl⟩

/-- Settles O19: a count other than 1 and 2 is not well-formed. -/
theorem rdregRefusesOtherCounts : Obligations.RdregRefusesOtherCounts :=
  fun _ _ _ hb h₁ h₂ => exec_of_illFormed hb (by simp [Instr.wellFormed, h₁, h₂])

/-- Settles O20: the words are the table's, and executing a pseudo-command is executing its expansion. -/
theorem namedFormsAreTheirExpansion : Obligations.NamedFormsAreTheirExpansion :=
  fun _ s => ⟨rfl, rfl, rfl, rfl, exec_expand .cfg1shot s, exec_expand .startconv s, exec_expand .rdstat s,
    exec_expand .rdtemp s⟩

/-! ## Illegal words (R53) -/

theorem callCmd_of_illegal {e : DecodeReject} (hr : s.resetAsserted = false) (hd : decode w = .error e) :
    callCmd w s = illegalCommand s := by simp [callCmd, hr, hd]
theorem writeCmd_of_illegal {e : DecodeReject} (hr : s.resetAsserted = false) (hd : decode w = .error e) :
    writeCmd w s = illegalCommand s := by simp [writeCmd, hr, hd]
theorem illegalCommand_of_not_busy (hb : s.busy = false) :
    illegalCommand s = .next { s with err := .illegal, upc := 0 } := by simp [illegalCommand, hb]

/-- Settles O41: called or written, an illegal word sets `ERR`, and `UPC`, which has no meaning then, and nothing else. -/
theorem illegalWordsCompleteWithIllegal : Obligations.IllegalWordsCompleteWithIllegal := by
  intro w e s hd hb hr
  have hdone := illegalCommand_of_not_busy hb
  refine ⟨_, (callCmd_of_illegal hr hd).trans hdone, (writeCmd_of_illegal hr hd).trans hdone, hb, rfl, rfl, rfl, rfl, ?_, rfl,
    rfl, by simp [sameOutside]⟩
  intro l
  cases l <;> rfl

end Sys2Proof.Machine
end

section
/-! PROOFS. The line driver's statements (40_line_driver.md): what `REL`, `LOW` and `SMP` do, and what the trace of a command
depends on. -/

namespace Sys2Proof.Machine

variable {s s' : State} {l : Line}

/-! ## One micro-operation on a drive state (R61, R62, R63) -/

@[simp] theorem drivenFrom_single_release (d : Bool) (l l' : Line) :
    drivenFrom d [.release l] l' = if l' = l then false else d := by simp [drivenFrom, eq_comm]

@[simp] theorem drivenFrom_single_pullLow (d : Bool) (l l' : Line) :
    drivenFrom d [.pullLow l] l' = if l' = l then true else d := by simp [drivenFrom, eq_comm]

@[simp] theorem drivenFrom_single_sample (d : Bool) (l l' : Line) (v : Bool) : drivenFrom d [.sample l v] l' = d := rfl

/-! ## The three commands: each is its one micro-operation -/

/-- `REL l` performs its one micro-operation, which cannot hang, and completes (R61). -/
theorem exec_rel_of_not_busy (hb : s.busy = false) :
    exec (.rel l) s = .next ((s.midway (.rel l) [.release l]).complete .ok none) := exec_of_not_busy hb rfl

/-- So does `LOW l` (R62). -/
theorem exec_low_of_not_busy (hb : s.busy = false) :
    exec (.low l) s = .next ((s.midway (.low l) [.pullLow l]).complete .ok none) := exec_of_not_busy hb rfl

/-- `SMP l` performs the sample with the level that the environment answers where the command is issued (R63). -/
theorem exec_smp_of_not_busy (hb : s.busy = false) :
    exec (.smp l) s = .next ((s.midway (.smp l) [.sample l (s.level l)]).complete .ok none) := exec_of_not_busy hb rfl

/-- Settles O6: a release writes its line's drive state only. -/
theorem relReleasesItsLine : Obligations.RelReleasesItsLine := fun l s hb =>
  ⟨decode_encode_of_isCore (p := s.params) (i := .rel l) rfl rfl, _, exec_rel_of_not_busy hb, completed_midway .., by simp,
    by simp [lastSample], by simp, rfl⟩

/-- Settles O7: a pull-low writes its line's drive state only. -/
theorem lowPullsItsLineLow : Obligations.LowPullsItsLineLow := fun l s hb =>
  ⟨decode_encode_of_isCore (p := s.params) (i := .low l) rfl rfl, _, exec_low_of_not_busy hb, completed_midway .., by simp,
    by simp [lastSample], by simp, rfl⟩

/-- Settles O8: a sample writes `SBIT` only, and takes no delay. -/
theorem smpReadsItsLine : Obligations.SmpReadsItsLine := fun l s hb =>
  ⟨decode_encode_of_isCore (p := s.params) (i := .smp l) rfl rfl, _, exec_smp_of_not_busy hb, completed_midway ..,
    by simp [lastSample], by simp, by simp, rfl⟩

/-! ## What a command's trace depends on (R65) -/

/-- Two states that may differ only in what no command looks at while it runs (the drive states, `SBIT`, `RDATA`, and what is
the host's): the environment answers alike in both, and they agree in all that O31 compares. -/
structure State.Alike (s s' : State) : Prop where
  bus : s.bus = s'.bus
  resets : s.resets = s'.resets
  history : s.history = s'.history
  err : s.err = s'.err
  busy : s.busy = s'.busy
  ifc : s.ifc = s'.ifc

/-- A sample is answered alike (R32). -/
theorem State.Alike.level_eq (h : s.Alike s') (l : Line) : s.level l = s'.level l := by
  simp only [State.level, h.bus, h.resets, h.history]

/-- A byte transfer hangs alike (R104). -/
theorem State.Alike.stallsIn_eq (h : s.Alike s') (ph : Phase) : s.stallsIn ph = s'.stallsIn ph := by
  cases ph with
  | framing => rfl
  | byteTransfer => simp only [State.stallsIn, State.hangsHere, h.bus, h.resets, h.history]

theorem State.Alike.perform (h : s.Alike s') (m : MicroOp) : (s.perform m).Alike (s'.perform m) :=
  ⟨by simpa using h.bus, by simpa using h.resets, by simpa using h.history, by simpa using h.err, by simpa using h.busy,
    by simpa using h.ifc⟩

theorem State.Alike.complete (h : s.Alike s') (r : Result) (d : Option Byte) : (s.complete r d).Alike (s'.complete r d) :=
  ⟨h.bus, h.resets, h.history, rfl, rfl, rfl⟩

/-- A micro-program takes the same course in both: each micro-operation hangs or is performed in both, each sample has one
answer, so the same program is left. -/
theorem Prog.run_alike (p : Prog) (h : s.Alike s') : (p.run s).Alike (p.run s') := by
  induction p generalizing s s' with
  | release ph l next ih =>
    simp only [Prog.run, h.stallsIn_eq ph]
    split
    · exact h
    · exact ih (h.perform (.release l))
  | pullLow ph l next ih =>
    simp only [Prog.run, h.stallsIn_eq ph]
    split
    · exact h
    · exact ih (h.perform (.pullLow l))
  | sample ph l next ih =>
    simp only [Prog.run, h.stallsIn_eq ph, h.level_eq l]
    split
    · exact h
    · exact ih _ (h.perform (.sample l (s'.level l)))
  | finish r d => exact h.complete r d

/-- Issuing makes two states alike whatever `ERR`, `BUSY` and `IFC` were, where the history and the environment agree (R20). -/
theorem State.Alike.of_issue (hbus : s.bus = s'.bus) (hres : s.resets = s'.resets) (hhist : s.history = s'.history)
    (i : Instr) : (s.issue i).Alike (s'.issue i) := ⟨hbus, hres, hhist, rfl, rfl, rfl⟩

/-- Settles O31: issued with the same parameters, the instruction runs one micro-program from two states that are alike. -/
theorem traceDependsOnOperandsAndSamplesOnly : Obligations.TraceDependsOnOperandsAndSamplesOnly := by
  intro i s s' t t' hp hbus hres hhist hn hn'
  obtain ⟨-, -, rfl⟩ := exec_next hn
  obtain ⟨-, -, rfl⟩ := exec_next hn'
  rw [← hp]
  have h := (program s.params i).run_alike (.of_issue hbus hres hhist (i.expand s.params))
  exact ⟨h.history, h.err, h.busy, h.ifc⟩

end Sys2Proof.Machine
end

section
/-! PROOFS. The transaction engine's statements (41_transaction_engine.md): what its six commands do, the counts of its
operations, and what they make on the wires. -/

namespace Sys2Proof.Machine

variable {s : State} {h tr : List MicroOp} {others : List MicroOp → Line → Bool}

/-! ## The data line inside a byte (R75) -/

/-- In the trace performed after the history `h`, the block changes the data line only while it drives the clock low. -/
def changesDataWithClockLow : List MicroOp → List MicroOp → Prop
  | _, [] => True
  | h, m :: tr =>
    (drivenAfter (h ++ [m]) .sda ≠ drivenAfter h .sda → drivenAfter h .scl = true) ∧ changesDataWithClockLow (h ++ [m]) tr

theorem changesDataWithClockLow_append (h a b : List MicroOp) :
    changesDataWithClockLow h (a ++ b) ↔ changesDataWithClockLow h a ∧ changesDataWithClockLow (h ++ a) b := by
  induction a generalizing h with
  | nil => simp [changesDataWithClockLow]
  | cons m a ih => simp [changesDataWithClockLow, ih, and_assoc]

/-- What it says of one micro-operation of the trace. -/
theorem clock_low_of_data_change {before after : List MicroOp} {m : MicroOp}
    (hc : changesDataWithClockLow h (before ++ m :: after))
    (hne : drivenAfter (h ++ before ++ [m]) .sda ≠ drivenAfter (h ++ before) .sda) :
    drivenAfter (h ++ before) .scl = true := by
  obtain ⟨-, hm, -⟩ := (changesDataWithClockLow_append ..).1 hc
  exact hm hne

/-- Bit by bit: a trace of slots that each end with the clock driven low and, entered so, change the data line only then. -/
theorem changesDataWithClockLow_slots {slot : Bool → List MicroOp} (bits : List Bool)
    (hslot : ∀ h bit, drivenAfter h .scl = true → changesDataWithClockLow h (slot bit))
    (hend : ∀ d bit, drivenFrom d (slot bit) .scl = true) (hd : drivenAfter h .scl = true) :
    changesDataWithClockLow h (bits.flatMap slot) := by
  induction bits generalizing h with
  | nil => trivial
  | cons bit bits ih =>
    rw [List.flatMap_cons, changesDataWithClockLow_append]
    exact ⟨hslot h bit hd, ih ((drivenAfter_append ..).trans (hend ..))⟩

/-- A bit sent is put on the data line before its clock pulse (R69). -/
theorem changesDataWithClockLow_bitTrace (hd : drivenAfter h .scl = true) (bit : Bool) :
    changesDataWithClockLow h (bitTrace bit) := by
  cases bit <;> simp [bitTrace, changesDataWithClockLow, drivenAfter_append, drivenFrom, hd]

/-- A pulse in which the data line is sampled does not touch it (R66). -/
theorem changesDataWithClockLow_sampledBitTrace (h : List MicroOp) (bit : Bool) :
    changesDataWithClockLow h (sampledBitTrace bit) := by
  simp [sampledBitTrace, changesDataWithClockLow, drivenAfter_append, drivenFrom]

theorem changesDataWithClockLow_receiveTrace (hd : drivenAfter h .scl = true) (b : Byte) :
    changesDataWithClockLow h (receiveTrace b) := by
  have hd' : drivenAfter (h ++ [.release .sda]) .scl = true := (drivenAfter_append ..).trans hd
  exact ⟨fun _ => hd,
    changesDataWithClockLow_slots _ (fun h bit _ => changesDataWithClockLow_sampledBitTrace h bit) (fun _ _ => rfl) hd'⟩

/-- The eight bits, then the data line released and sampled in the ninth pulse (R69). -/
theorem changesDataWithClockLow_sendTrace (hd : drivenAfter h .scl = true) (b : Byte) (ack : Bool) :
    changesDataWithClockLow h (sendTrace b ack) := by
  have hd' := drivenAfter_bits_scl hd (bitsMsbFirst b)
  rw [sendTrace, changesDataWithClockLow_append]
  exact ⟨changesDataWithClockLow_slots _ (fun _ bit hd => changesDataWithClockLow_bitTrace hd bit) drivenFrom_bitTrace_scl hd,
    fun _ => hd', changesDataWithClockLow_sampledBitTrace _ ack⟩

/-- The acknowledgment steps are data bits sent: `MasterAck()` a 0, `MasterNack()` a 1 (R71, R72). -/
theorem changesDataWithClockLow_byte {b : Byte} {ack : Bool} (hd : drivenAfter h .scl = true)
    (ht : tr ∈ [sendTrace b ack, receiveTrace b, ackTrace, nackTrace]) : changesDataWithClockLow h tr := by
  simp only [List.mem_cons, List.not_mem_nil, or_false] at ht
  obtain rfl | rfl | rfl | rfl := ht
  · exact changesDataWithClockLow_sendTrace hd b ack
  · exact changesDataWithClockLow_receiveTrace hd b
  · exact changesDataWithClockLow_bitTrace hd false
  · exact changesDataWithClockLow_bitTrace hd true

/-- Settles O52: each of the traces is made of slots that change the data line before the clock pulse only. -/
theorem dataChangesOnlyWithTheClockLow : Obligations.DataChangesOnlyWithTheClockLow := by
  rintro h _ before after m b ack hd ht rfl hne
  exact clock_low_of_data_change (changesDataWithClockLow_byte hd ht) hne

/-! ## Conditions (R34, R75) -/

/-- The other devices change the data line only while the block drives the clock low. -/
def othersChangeDataWithClockLow (others : List MicroOp → Line → Bool) : Prop :=
  ∀ g m, drivenAfter g .scl = false → drivenAfter (g ++ [m]) .scl = false → others (g ++ [m]) .sda = others g .sda

/-- If the block and the other devices keep to it, the data line stands still while the clock is high. -/
theorem wireLevel_sda_of_clock_high {m : MicroOp} (ho : othersChangeDataWithClockLow others)
    (hm : drivenAfter (h ++ [m]) .sda ≠ drivenAfter h .sda → drivenAfter h .scl = true)
    (hx : wireLevel others h .scl = true) (hy : wireLevel others (h ++ [m]) .scl = true) :
    wireLevel others (h ++ [m]) .sda = wireLevel others h .sda := by
  simp only [wireLevel, Bool.and_eq_true, Bool.not_eq_true'] at hx hy
  have hblock : drivenAfter (h ++ [m]) .sda = drivenAfter h .sda := by
    by_contra hne
    simp [hm hne] at hx
  simp only [wireLevel, hblock, ho h m hx.1 hy.1]

/-- A change of levels that leaves the data line where it is while the clock is high makes no condition. -/
theorem symbolOf_of_steady_data {x y : Levels} (hs : x.scl = true → y.scl = true → y.sda = x.sda) :
    symbolOf x y = none ∨ ∃ v, symbolOf x y = some (.dataBit v) := by
  obtain ⟨xc, xd⟩ := x
  obtain ⟨yc, yd⟩ := y
  revert xc xd yc yd
  decide

/-- A trace in which the data line stands still while the clock is high makes no start or stop condition. -/
theorem conditions_eq_nil_of_changesDataWithClockLow (ho : othersChangeDataWithClockLow others)
    (hc : changesDataWithClockLow h tr) :
    conditions others h tr = [] := by
  induction tr generalizing h with
  | nil => rfl
  | cons m tr ih =>
    obtain ⟨hm, hc⟩ := hc
    have hrest := ih hc
    rw [conditions] at hrest ⊢
    obtain hsym | ⟨v, hsym⟩ := symbolOf_of_steady_data (x := wireLevels others h) (y := wireLevels others (h ++ [m]))
      (wireLevel_sda_of_clock_high ho hm)
    · simp only [symbols, hsym]
      exact hrest
    · simp only [symbols, hsym, List.filter_append, hrest]
      split <;> rfl

/-- Settles O53: the traces of O52 change the data line with the clock low, and so make no condition. -/
theorem bytesMakeNoConditions : Obligations.BytesMakeNoConditions :=
  fun _ _ _ _ _ ho hd ht => conditions_eq_nil_of_changesDataWithClockLow ho (changesDataWithClockLow_byte hd ht)

/-! ## The symbols of `Start()` and `Stop()` (R73) -/

/-- `Start()` makes a start condition, after a stop condition if the data line is driven low at entry: it is released with the
clock high (R67, R112). -/
theorem symbols_startTrace (h : List MicroOp) (v : Bool) :
    symbols noOthers h (startTrace v) =
      if drivenAfter h .sda then [.stopCondition, .startCondition] else [.startCondition] := by
  cases hc : drivenAfter h .scl <;> cases hd : drivenAfter h .sda <;>
    simp [startTrace, symbols, conditionAhead, symbolOf, wireLevels, drivenAfter_append, drivenFrom, hc, hd]

/-- `Stop()` makes a stop condition, after a start condition on the idle bus, where it pulls the data line low with the clock
high (R68, R111). -/
theorem symbols_stopTrace (h : List MicroOp) :
    symbols noOthers h stopTrace =
      if drivenAfter h .scl || drivenAfter h .sda then [.stopCondition] else [.startCondition, .stopCondition] := by
  cases hc : drivenAfter h .scl <;> cases hd : drivenAfter h .sda <;>
    simp [stopTrace, symbols, conditionAhead, symbolOf, wireLevels, drivenAfter_append, drivenFrom, hc, hd]

/-- Settles O55: which symbols they are depends on the drive states at entry only. -/
theorem symbolsOfStartAndStop : Obligations.SymbolsOfStartAndStop := by
  intro h v
  rw [symbols_startTrace, symbols_stopTrace]
  refine ⟨fun hc hd => ?_, fun _ hd => ?_, fun _ hd => ?_, fun hc => ?_, fun hc hd => ?_⟩
  · simp [hc, hd]
  · simp [hd]
  · simp [hd]
  · simp [hc]
  · simp [hd]

/-! ## Counts (R76, R121, R122) -/

/-- Settles O26: the byte and the samples choose between micro-operations that count alike. -/
theorem engineOperationCounts : Obligations.EngineOperationCounts := fun p b v =>
  ⟨rfl, rfl, by simp, by simp, rfl, rfl, by rw [duration, delayCount_sendTrace]⟩

/-! ## The commands -/

/-- `MACK` has no sample and no byte transfer, so it performs its trace (R71). -/
theorem exec_mack_of_not_busy (hb : s.busy = false) :
    exec .mack s = .next ((s.midway .mack ackTrace).complete .ok none) := exec_of_not_busy hb rfl

/-- So does `MNACK` (R72). -/
theorem exec_mnack_of_not_busy (hb : s.busy = false) :
    exec .mnack s = .next ((s.midway .mnack nackTrace).complete .ok none) := exec_of_not_busy hb rfl

/-- `SENDB`, where nothing hangs, performs the trace that the acknowledgment sample selects (R69). -/
theorem exec_sendb_of_answers {b : Byte} {ack : Bool} (hb : s.busy = false) (hn : s.envNoHang)
    (ha : s.answers (sendTrace b ack) = true) :
    exec (.sendb b) s = .next ((s.midway (.sendb b) (sendTrace b ack)).complete (ackResult ack) none) := by
  refine exec_of_after hb rfl hn ?_ ha
  rw [program, progSendb, ← List.append_nil (sendTrace b ack), after_sendByteProc, orRaise_ackResult]
  rfl

/-- `RECVB`, where nothing hangs, performs the trace of the byte that the samples spell (R70). -/
theorem exec_recvb_of_answers {b : Byte} (hb : s.busy = false) (hn : s.envNoHang) (ha : s.answers (receiveTrace b) = true) :
    exec .recvb s = .next ((s.midway .recvb (receiveTrace b)).complete .ok (some b)) := by
  refine exec_of_after hb rfl hn ?_ ha
  rw [program, progRecvb, ← List.append_nil (receiveTrace b), after_receiveByteProc]
  rfl

/-- With the data line released and no device driving it, a healthy bus answers every sampled bit with 1. -/
theorem sampledBits_of_pullUp {bits : List Bool} (hp : s.envPullUp noOthers) (hr : drivenAfter h .sda = false)
    (ha : answersAgree s.bus s.resets h (bits.flatMap sampledBitTrace) = true) : bits = List.replicate bits.length true := by
  induction bits generalizing h with
  | nil => rfl
  | cons bit bits ih =>
    rw [List.flatMap_cons, answersAgree_append, Bool.and_eq_true] at ha
    obtain ⟨hbit, hbits⟩ := ha
    have hrelease : drivenAfter (h ++ [.release .scl]) .sda = false := (drivenAfter_append ..).trans hr
    have hslot : drivenAfter (h ++ sampledBitTrace bit) .sda = false := (drivenAfter_append ..).trans hr
    have hlevel := hp _ .sda hrelease rfl
    have hbit : bit = true := by simpa [sampledBitTrace, answersAgree, hlevel, eq_comm] using hbit
    rw [hbit, List.length_cons, List.replicate_succ, ← ih hslot hbits]

/-- So the byte received there is 0xFF (R70). -/
theorem received_of_pullUp {b : Byte} (hp : s.envPullUp noOthers) (ha : s.answers (receiveTrace b) = true) : b = 0xFF#8 := by
  have hbits : bitsMsbFirst b = List.replicate 8 true :=
    sampledBits_of_pullUp (h := s.history ++ [.release .sda]) hp (drivenAfter_append ..)
      (by simpa [State.answers, receiveTrace, answersAgree] using ha)
  rw [← byteOfBits_bitsMsbFirst b, hbits]
  rfl

/-- Settles O11: the environment answers the acknowledgment sample with some level, and the trace with it is performed. -/
theorem sendbTransmitsAByte : Obligations.SendbTransmitsAByte := by
  intro b s hb hn
  obtain ⟨ack, ha⟩ : ∃ ack, s.answers (sendTrace b ack) = true := exists_sendTrace ..
  exact ⟨decode_encode_of_isCore (p := s.params) (i := .sendb b) rfl rfl, ack, _, ha, exec_sendb_of_answers hb hn ha,
    completed_midway .., by simp⟩

/-- Settles O12: the environment's answers to the eight samples spell some byte, and its trace is performed. -/
theorem recvbReceivesAByte : Obligations.RecvbReceivesAByte := by
  refine ⟨by decide, fun s hb hn => ?_⟩
  obtain ⟨v, ha⟩ : ∃ v, s.answers (receiveTrace v) = true := exists_receiveTrace ..
  exact ⟨v, _, ha, exec_recvb_of_answers hb hn ha, completed_midway ..,
    by simpa using fun hp => received_of_pullUp hp ha⟩

/-- Settles O9: the clock sample selects the trace, and from `(1, 0)` that is one start condition. -/
theorem startMakesAStartCondition : Obligations.StartMakesAStartCondition := by
  refine ⟨by decide, fun s hb => ?_⟩
  obtain ⟨v, ha⟩ : ∃ v, s.answers (startTrace v) = true := exists_startTrace ..
  refine ⟨v, _, ha, exec_start_of_answers hb ha, completed_midway .., by simp, by simp, by simp, by simp, fun _ hd => ?_⟩
  simp [conditions, symbols_startTrace, hd]

/-- Settles O10: `Stop()` releases both lines and has no sample. -/
theorem stopMakesAStopCondition : Obligations.StopMakesAStopCondition :=
  ⟨by decide, fun _ hb => ⟨_, exec_stop_of_not_busy hb, completed_midway .., by simp⟩⟩

/-- Settles O13: `MasterAck()` ends with both lines driven low and has no sample. -/
theorem mackAcknowledges : Obligations.MackAcknowledges :=
  ⟨by decide, fun _ hb => ⟨_, exec_mack_of_not_busy hb, completed_midway .., by simp⟩⟩

/-- Settles O14: `MasterNack()` ends with the clock driven low, the data line released, and has no sample. -/
theorem mnackDoesNotAcknowledge : Obligations.MnackDoesNotAcknowledge :=
  ⟨by decide, fun _ hb => ⟨_, exec_mnack_of_not_busy hb, completed_midway .., by simp⟩⟩

end Sys2Proof.Machine
end

section
/-! PROOFS. The sequencer's statements (42_sensor_sequencer.md): the path that `WRCMD`, `RDREG` and their named forms take, the
read built from engine commands, and the session. -/

namespace Sys2Proof.Machine

variable {s : State} {i : Instr} {p : Params} {tr : List MicroOp} {r : Result}

/-! ## The paths the commands take (R79, R83) -/

/-- On a bus where nothing hangs, a well-formed instruction completes after a trace of its micro-program that the environment's
answers select. -/
theorem exec_completes (hb : s.busy = false) (hw : i.wellFormed = true) (hn : s.envNoHang) :
    ∃ tr r d, (program s.params i).after tr = some (.finish r d) ∧ s.answers tr = true ∧
      exec i s = .next ((s.midway i tr).complete r d) := by
  obtain ⟨tr, r, d, ha, he, -⟩ := Prog.run_completes (program s.params i) hn
  exact ⟨tr, r, d, ha, he, exec_of_after hb hw hn ha he⟩

/-- `WRCMD`, under its own name or as a named write, completes along a path of its table and writes no byte (R78, R79). -/
theorem exec_takes_wrcmdPath {code payload : Byte} (hb : s.busy = false) (hw : i.wellFormed = true) (hn : s.envNoHang)
    (hi : program s.params i = progWrcmd s.params code payload) :
    ∃ path ∈ wrcmdPaths s.params code payload, s.answers path.1 = true ∧
      exec i s = .next ((s.midway i path.1).complete path.2 none) ∧ ∀ c l, drivenFrom c path.1 l = false := by
  obtain ⟨tr, r, d, ha, he, hexec⟩ := exec_completes hb hw hn
  rw [hi] at ha
  obtain ⟨hm, rfl⟩ := progWrcmd_finish ha
  obtain ⟨-, hoe, -⟩ := progWrcmd_leaves ha
  exact ⟨(tr, r), hm, he, hexec, hoe⟩

theorem rdregFailures_ne_ok {code : Byte} (h : (tr, r) ∈ rdregFailures p code) : r ≠ .ok := by
  rintro rfl
  simp [rdregFailures] at h

/-- `RDREG`, under its own name or as a named read, fails along its table with the clock or acknowledgment sample 1 as the last
one, or receives the bytes asked for and writes the first (R82, R83, R84). -/
theorem exec_fails_or_reads {code : Byte} {n : Nat} (hb : s.busy = false) (hw : i.wellFormed = true) (hn : s.envNoHang)
    (hi : program s.params i = progRdreg s.params code n) :
    (∃ path ∈ rdregFailures s.params code, s.answers path.1 = true ∧
      exec i s = .next ((s.midway i path.1).complete path.2 none) ∧
      (∀ c l, drivenFrom c path.1 l = false) ∧ ∀ x, lastSample x path.1 = true) ∨
    ∃ vs, vs.length = n ∧ s.answers (rdregTrace s.params code vs) = true ∧
      exec i s = .next ((s.midway i (rdregTrace s.params code vs)).complete .ok vs.head?) := by
  obtain ⟨tr, r, d, ha, he, hexec⟩ := exec_completes hb hw hn
  rw [hi] at ha
  rcases progRdreg_finish ha with ⟨hm, rfl⟩ | ⟨vs, hl, rfl, rfl, rfl⟩
  · obtain ⟨-, hoe, hfail, -⟩ := progRdreg_leaves ha
    obtain ⟨-, hlast⟩ := hfail (rdregFailures_ne_ok hm)
    exact .inl ⟨(tr, r), hm, he, hexec, hoe, hlast⟩
  · exact .inr ⟨vs, hl, he, hexec⟩

@[simp] theorem drivenFrom_rdregTrace (c : Bool) (code : Byte) (vs : List Byte) (l : Line) :
    drivenFrom c (rdregTrace p code vs) l = false := by
  rw [rdregTrace, drivenFrom_append, drivenFrom_stopTrace]

/-- The last sample of a read is the last bit of the last byte (R70). -/
@[simp] theorem lastSample_rdregTrace (x : Bool) (code v : Byte) (vs : List Byte) :
    lastSample x (rdregTrace p code (v :: vs)) = ((v :: vs).getLast (by simp)).getLsbD 0 := by
  rw [rdregTrace, lastSample_append, lastSample_append, lastSample_stopTrace, lastSample_receivedTrace]

/-! ## WRCMD and RDREG -/

/-- Settles O15: the path is that of the trace which the answers select, and every path releases both lines. -/
theorem wrcmdTakesAPathOfItsTable : Obligations.WrcmdTakesAPathOfItsTable := by
  intro code payload s hb hn
  obtain ⟨path, hm, he, hexec, hoe⟩ := exec_takes_wrcmdPath (i := .wrcmd code payload) hb rfl hn rfl
  exact ⟨path, hm, _, he, hexec, completed_midway .., by simp [hoe], by simp, by simp⟩

/-- Settles O18: a failing path writes no byte, and a successful one has received one byte at least, the first of which it
writes. -/
theorem rdregFailsOrReturnsTheFirstByte : Obligations.RdregFailsOrReturnsTheFirstByte := by
  intro code n s hcount hb hn
  have hw : (Instr.rdreg code n).wellFormed = true := by simpa [Instr.wellFormed] using hcount
  rcases exec_fails_or_reads hb hw hn rfl with ⟨path, hm, he, hexec, hoe, hlast⟩ | ⟨vs, hl, he, hexec⟩
  · exact .inl ⟨path, hm, _, he, hexec, completed_midway .., by simp [hoe], by simp [hlast], by simp⟩
  · obtain ⟨v, vs, rfl⟩ := List.exists_cons_of_length_pos (l := vs) (by omega)
    exact .inr ⟨v, vs, _, hl, he, hexec, completed_midway .., by simp, by simp, rfl⟩

/-! ## The named forms -/

/-- With `CMD_CONFIG` the successful path sends the payload (R80). -/
theorem wrcmdPaths_ok_config {payload : Byte} {path : Path} (h : path ∈ wrcmdPaths p p.cmdConfig payload) (hr : path.2 = .ok) :
    path.1 = wrcmdAddressed p p.cmdConfig ++ sendTrace payload false ++ stopTrace := by
  obtain ⟨tr, r⟩ := path
  obtain rfl : r = .ok := hr
  simpa [wrcmdPaths, wrcmdAddressed] using h

/-- With another code it does not. -/
theorem wrcmdPaths_ok_other {code payload : Byte} (hc : code ≠ p.cmdConfig) {path : Path}
    (h : path ∈ wrcmdPaths p code payload) (hr : path.2 = .ok) : path.1 = wrcmdAddressed p code ++ stopTrace := by
  obtain ⟨tr, r⟩ := path
  obtain rfl : r = .ok := hr
  simpa [wrcmdPaths, wrcmdAddressed, hc] using h

/-- Settles O21: the named writes run the micro-program of `WRCMD`, and the codes differ (R6). -/
theorem namedWritesComplete : Obligations.NamedWritesComplete := by
  intro s hb hn
  obtain ⟨cfg, hcfg, hecfg, hxcfg, hoecfg⟩ := exec_takes_wrcmdPath (i := .cfg1shot) hb rfl hn rfl
  obtain ⟨conv, hconv, heconv, hxconv, hoeconv⟩ := exec_takes_wrcmdPath (i := .startconv) hb rfl hn rfl
  exact ⟨⟨cfg, hcfg, _, hecfg, hxcfg, completed_midway .., wrcmdPaths_ok_config hcfg, by simp [hoecfg], by simp⟩,
    ⟨conv, hconv, _, heconv, hxconv, completed_midway .., wrcmdPaths_ok_other (cmdStartConv_ne_cmdConfig _) hconv,
      by simp [hoeconv], by simp⟩⟩

/-- Settles O22: the named reads run the micro-program of `RDREG` with the counts 1 and 2. -/
theorem namedReadsComplete : Obligations.NamedReadsComplete := by
  intro s hb hn
  constructor
  · rcases exec_fails_or_reads (i := .rdstat) hb rfl hn rfl with ⟨path, hm, -, hexec, -⟩ | ⟨vs, hl, -, hexec⟩
    · exact .inl ⟨path, hm, _, hexec, completed_midway .., by simp⟩
    · obtain ⟨v, rfl⟩ := List.length_eq_one_iff.1 hl
      exact .inr ⟨v, _, hexec, completed_midway .., rfl⟩
  · rcases exec_fails_or_reads (i := .rdtemp) hb rfl hn rfl with ⟨path, hm, -, hexec, -⟩ | ⟨vs, hl, -, hexec⟩
    · exact .inl ⟨path, hm, _, hexec, completed_midway .., by simp⟩
    · obtain ⟨v, w, rfl⟩ := List.length_eq_two.1 hl
      exact .inr ⟨v, w, _, hexec, completed_midway .., rfl⟩

/-! ## The read built from engine commands (95_test_vectors.md P5) -/

/-- A command that succeeds: its trace, and the byte it writes, if any. -/
structure SuccessfulCommand where
  instr : Instr
  trace : List MicroOp
  byte : Option Byte

/-- The trace is one of the command's own, at the end of which it has succeeded. -/
def SuccessfulCommand.Runs (p : Params) (c : SuccessfulCommand) : Prop :=
  c.instr.wellFormed = true ∧ (program p c.instr).after c.trace = some (.finish .ok c.byte)

/-- The state in which a command issued in `s` has succeeded. -/
def State.afterSuccess (s : State) (c : SuccessfulCommand) : State := (s.midway c.instr c.trace).complete .ok c.byte

section
variable {c : SuccessfulCommand}
@[simp] theorem afterSuccess_params : (s.afterSuccess c).params = s.params := by simp [State.afterSuccess]
@[simp] theorem afterSuccess_history : (s.afterSuccess c).history = s.history ++ c.trace := by simp [State.afterSuccess]
@[simp] theorem afterSuccess_sbit : (s.afterSuccess c).sbit = lastSample s.sbit c.trace := by simp [State.afterSuccess]
@[simp] theorem afterSuccess_oe (l : Line) : (s.afterSuccess c).oe l = drivenFrom (s.oe l) c.trace l := by
  simp [State.afterSuccess]
@[simp] theorem afterSuccess_bus : (s.afterSuccess c).bus = s.bus := by simp [State.afterSuccess, State.midway]
@[simp] theorem afterSuccess_resets : (s.afterSuccess c).resets = s.resets := by simp [State.afterSuccess, State.midway]

theorem answers_append_afterSuccess (h : s.answers (c.trace ++ tr) = true) :
    s.answers c.trace = true ∧ (s.afterSuccess c).answers tr = true := by
  rw [State.answers, answersAgree_append, Bool.and_eq_true] at h
  simpa [State.answers] using h
end

/-- Commands issued one after the other succeed one after the other, if the environment's answers to all their traces, joined, let
them. -/
theorem execAll_of_successful (cs : List SuccessfulCommand) (hc : ∀ c ∈ cs, c.Runs s.params) (hb : s.busy = false)
    (hn : s.envNoHang) (ha : s.answers (cs.flatMap SuccessfulCommand.trace) = true) :
    execAll (cs.map SuccessfulCommand.instr) s = .next (cs.foldl State.afterSuccess s) := by
  induction cs generalizing s with
  | nil => rfl
  | cons c cs ih =>
    obtain ⟨⟨hw, hrun⟩, hcs⟩ := List.forall_mem_cons.1 hc
    obtain ⟨hfirst, hrest⟩ := answers_append_afterSuccess ha
    have hexec : exec c.instr s = .next (s.afterSuccess c) := exec_of_after hb hw hn hrun hfirst
    have hnext := ih (s := s.afterSuccess c) (by simpa using hcs) rfl (by simpa [State.envNoHang] using hn) hrest
    simpa [execAll, hexec] using hnext

/-- The history, the drive states and `SBIT` after the commands are what their joined trace leaves. -/
@[simp] theorem foldl_afterSuccess_history (cs : List SuccessfulCommand) :
    (cs.foldl State.afterSuccess s).history = s.history ++ cs.flatMap SuccessfulCommand.trace := by
  induction cs generalizing s with
  | nil => simp
  | cons c cs ih => simp [ih]

@[simp] theorem foldl_afterSuccess_oe (cs : List SuccessfulCommand) (l : Line) :
    (cs.foldl State.afterSuccess s).oe l = drivenFrom (s.oe l) (cs.flatMap SuccessfulCommand.trace) l := by
  induction cs generalizing s with
  | nil => rfl
  | cons c cs ih => simp [ih, drivenFrom_append]

@[simp] theorem foldl_afterSuccess_sbit (cs : List SuccessfulCommand) :
    (cs.foldl State.afterSuccess s).sbit = lastSample s.sbit (cs.flatMap SuccessfulCommand.trace) := by
  induction cs generalizing s with
  | nil => rfl
  | cons c cs ih => simp [ih, lastSample_append]

/-- The two-byte read as engine commands (95_test_vectors.md P5). -/
def engineRead (p : Params) (code v w : Byte) : List SuccessfulCommand :=
  [⟨.start, startTrace false, none⟩, ⟨.sendb (addrW p), sendTrace (addrW p) false, none⟩,
   ⟨.sendb code, sendTrace code false, none⟩, ⟨.start, startTrace false, none⟩,
   ⟨.sendb (addrR p), sendTrace (addrR p) false, none⟩, ⟨.recvb, receiveTrace v, some v⟩, ⟨.mack, ackTrace, none⟩,
   ⟨.recvb, receiveTrace w, some w⟩, ⟨.mnack, nackTrace, none⟩, ⟨.stop, stopTrace, none⟩]

/-- Joined, the traces of the engine commands are the trace of `RDREG` (R82). -/
theorem engineRead_trace (p : Params) (code v w : Byte) :
    (engineRead p code v w).flatMap SuccessfulCommand.trace = rdregTrace p code [v, w] := by
  simp [engineRead, rdregTrace, rdregAddressed, receivedTrace]

theorem runs_start : SuccessfulCommand.Runs p ⟨.start, startTrace false, none⟩ := ⟨rfl, rfl⟩
theorem runs_sendb (b : Byte) : SuccessfulCommand.Runs p ⟨.sendb b, sendTrace b false, none⟩ := by
  refine ⟨rfl, ?_⟩
  rw [program, progSendb, ← List.append_nil (sendTrace b false), after_sendByteProc]
  rfl
theorem runs_recvb (b : Byte) : SuccessfulCommand.Runs p ⟨.recvb, receiveTrace b, some b⟩ := by
  refine ⟨rfl, ?_⟩
  rw [program, progRecvb, ← List.append_nil (receiveTrace b), after_receiveByteProc]
  rfl
theorem runs_mack : SuccessfulCommand.Runs p ⟨.mack, ackTrace, none⟩ := ⟨rfl, rfl⟩
theorem runs_mnack : SuccessfulCommand.Runs p ⟨.mnack, nackTrace, none⟩ := ⟨rfl, rfl⟩
theorem runs_stop : SuccessfulCommand.Runs p ⟨.stop, stopTrace, none⟩ := ⟨rfl, rfl⟩

theorem engineRead_runs (code v w : Byte) : ∀ c ∈ engineRead p code v w, c.Runs p := by
  simp [engineRead, runs_start, runs_sendb, runs_recvb, runs_mack, runs_mnack, runs_stop]

/-- Settles O23: the engine commands succeed one after the other, and what they leave is what the joined trace leaves, but for the
byte. -/
theorem sequencerReadIsItsEngineCommands : Obligations.SequencerReadIsItsEngineCommands := by
  intro code v w s hb hn ha
  have hengine := execAll_of_successful _ (engineRead_runs code v w) hb hn ((engineRead_trace ..).symm ▸ ha)
  have hrdreg := exec_of_after (i := .rdreg code 2) hb rfl hn (after_progRdreg s.params code [v, w]) ha
  exact ⟨_, _, hengine, hrdreg, by simp [engineRead_trace], by simp [engineRead_trace],
    by simp [engineRead_trace], rfl, rfl, rfl⟩

/-! ## The session (R89) -/

theorem Session.after_of_stopped {t : State} (h : t.busy = true ∨ t.err ≠ .ok) (q : Session) (i : Instr) :
    q.after i t = some q := if_pos h

theorem Session.after_of_ok {t : State} (hb : t.busy = false) (he : t.err = .ok) (q : Session) (i : Instr) :
    q.after i t = (sessionEvent i t).bind q.next := by simp [Session.after, hb, he]

theorem sessionEvent_cfg1shot (t : State) : sessionEvent .cfg1shot t = some .configured := by
  simp [sessionEvent, Instr.expand, sendsPayload]

/-- A start-conversion is one with every payload (R80), because its code is not `CMD_CONFIG` (R6). -/
theorem sessionEvent_wrcmd_cmdStartConv (t : State) (payload : Byte) :
    sessionEvent (.wrcmd t.params.cmdStartConv payload) t = some .started := by
  simp [sessionEvent, Instr.expand, sendsPayload, cmdStartConv_ne_cmdConfig]

theorem sessionEvent_startconv (t : State) : sessionEvent .startconv t = some .started :=
  sessionEvent_wrcmd_cmdStartConv t 0#8

theorem sessionEvent_rdstat (t : State) : sessionEvent .rdstat t = some (.polled (t.rdata.any doneFlag)) := by
  simp [sessionEvent, Instr.expand]

theorem sessionEvent_rdtemp (t : State) : sessionEvent .rdtemp t = some .temperatureRead := by
  simp [sessionEvent, Instr.expand]

theorem Session.next_started (q : Session) : q.next .started = some .converting := by cases q <;> rfl

theorem Session.next_converting_polled (done : Bool) :
    Session.converting.next (.polled done) = some (if done then .conversionDone else .converting) := by cases done <;> rfl

/-- Settles O57: each named command's event, and what `Session.next` makes of it. -/
theorem sessionTransitions : Obligations.SessionTransitions := by
  refine ⟨fun q i t h => Session.after_of_stopped h q i, fun t b hb he hd => ?_⟩
  have hafter := Session.after_of_ok hb he
  refine ⟨?_, fun q => ⟨?_, fun payload => ?_⟩, ?_, ?_⟩
  · rw [hafter, sessionEvent_cfg1shot]
    rfl
  · rw [hafter, sessionEvent_startconv]
    exact q.next_started
  · rw [hafter, sessionEvent_wrcmd_cmdStartConv]
    exact q.next_started
  · rw [hafter, sessionEvent_rdstat, hd]
    exact Session.next_converting_polled (doneFlag b)
  · rw [hafter, sessionEvent_rdtemp]
    rfl

end Sys2Proof.Machine
end

section
/-! PROOFS. The exceptions' statements (60_exceptions.md): the one path that the environment's answers select, how the sequencer's
commands end, and hangs. -/

namespace Sys2Proof.Machine

variable {s t u : State} {i : Instr} {p q next : Prog} {a b tr : List MicroOp}

/-! ## The answers select one trace (R126) -/

/-- What is left after a trace is what its first micro-operation left, after the others. -/
theorem Prog.after_cons_eq_some {m : MicroOp} (h : p.after (m :: tr) = some q) :
    ∃ n, p.after [m] = some n ∧ n.after tr = some q := by
  rw [← List.singleton_append, Prog.after_append] at h
  exact Option.bind_eq_some_iff.1 h

/-- A program comes to its end after one of the traces that agree with the environment's answers only: they differ first in what a
sample gave. -/
theorem Prog.finish_unique {e : Environment} {n : Nat} {h : List MicroOp} {r r' : Result} {d d' : Option Byte}
    (ha : p.after a = some (.finish r d)) (hb : p.after b = some (.finish r' d'))
    (hea : answersAgree e n h a = true) (heb : answersAgree e n h b = true) : a = b ∧ r = r' := by
  induction p generalizing a b h with
  | release ph l next ih =>
    obtain ⟨_, rfl, ha'⟩ := after_release_iff.1 ha
    obtain ⟨_, rfl, hb'⟩ := after_release_iff.1 hb
    simpa using ih ha' hb' hea heb
  | pullLow ph l next ih =>
    obtain ⟨_, rfl, ha'⟩ := after_pullLow_iff.1 ha
    obtain ⟨_, rfl, hb'⟩ := after_pullLow_iff.1 hb
    simpa using ih ha' hb' hea heb
  | sample ph l next ih =>
    obtain ⟨v, _, rfl, ha'⟩ := after_sample_iff.1 ha
    obtain ⟨w, _, rfl, hb'⟩ := after_sample_iff.1 hb
    simp only [answersAgree, Bool.and_eq_true, beq_iff_eq] at hea heb
    obtain ⟨rfl, hea⟩ := hea
    obtain ⟨rfl, heb⟩ := heb
    simpa using ih _ ha' hb' hea heb
  | finish =>
    obtain ⟨rfl, rfl, -⟩ := after_finish_iff.1 ha
    obtain ⟨rfl, rfl, -⟩ := after_finish_iff.1 hb
    exact ⟨rfl, rfl⟩

/-- Every path of the table is a whole trace of `WRCMD`, and ends with the path's result (R79, R80). -/
theorem after_progWrcmd_of_mem {pr : Params} {code payload : Byte} {path : Path} (h : path ∈ wrcmdPaths pr code payload) :
    (progWrcmd pr code payload).after path.1 = some (.finish path.2 none) := by
  by_cases hc : code = pr.cmdConfig
  · simp only [wrcmdPaths, if_pos hc, List.cons_append, List.nil_append, List.mem_cons, List.not_mem_nil, or_false] at h
    obtain rfl | rfl | rfl | rfl | rfl := h <;>
      simp [progWrcmd, writeTail, sendsPayload, hc, finishOk, after_stopProc_of_finish]
  · simp only [wrcmdPaths, if_neg hc, List.cons_append, List.nil_append, List.mem_cons, List.not_mem_nil, or_false] at h
    obtain rfl | rfl | rfl | rfl := h <;>
      simp [progWrcmd, writeTail, sendsPayload, hc, finishOk, after_stopProc_of_finish]

/-- Settles O16: both paths are whole traces of one micro-program. -/
theorem wrcmdPathsExcludeEachOther : Obligations.WrcmdPathsExcludeEachOther := by
  intro p code payload e n h x y hx hy hex hey
  obtain ⟨htrace, hresult⟩ := Prog.finish_unique (after_progWrcmd_of_mem hx) (after_progWrcmd_of_mem hy) hex hey
  exact Prod.ext htrace hresult

/-! ## How a completed command ends (R92, R95) -/

/-- An instruction after which `BUSY` is 0 came to the end of its micro-program. -/
theorem exec_completed (hn : exec i s = .next t) (hb : t.busy = false) :
    ∃ tr r d, (program s.params i).after tr = some (.finish r d) ∧ s.answers tr = true ∧
      t = (s.midway i tr).complete r d := by
  obtain ⟨tr, q, hq, ha, ⟨r, d, rfl, rfl⟩ | ⟨-, -, rfl⟩⟩ := exec_cases hn
  · exact ⟨tr, r, d, hq, ha, rfl⟩
  · simp at hb

/-- A trace in which some `Start()` sampled the clock high. -/
def HasBusyStart (tr : List MicroOp) : Prop := ∃ front rest, tr = front ++ startTrace true ++ rest

theorem hasBusyStart_of_progWrcmd {pr : Params} {code payload : Byte} {d : Option Byte}
    (h : (progWrcmd pr code payload).after tr = some (.finish .busBusy d)) : HasBusyStart tr := by
  obtain ⟨hm, -⟩ := progWrcmd_finish h
  obtain rfl : tr = startTrace true ++ stopTrace := by
    by_cases hc : code = pr.cmdConfig <;> simpa [wrcmdPaths, hc] using hm
  exact ⟨[], stopTrace, rfl⟩

theorem hasBusyStart_of_progRdreg {pr : Params} {code : Byte} {n : Nat} {d : Option Byte}
    (h : (progRdreg pr code n).after tr = some (.finish .busBusy d)) : HasBusyStart tr := by
  rcases progRdreg_finish h with ⟨hm, -⟩ | ⟨-, -, -, hr, -⟩
  · simp only [rdregFailures, List.mem_cons, Prod.mk.injEq, reduceCtorEq, and_false, and_true, false_or, or_false,
      List.not_mem_nil] at hm
    obtain rfl | rfl := hm
    · exact ⟨[], stopTrace, rfl⟩
    · exact ⟨_, stopTrace, rfl⟩
  · cases hr

/-- A command ends with `BUS_BUSY` only where a `Start()` of it sampled the clock high (R92). -/
theorem hasBusyStart_of_busBusy {pr : Params} {d : Option Byte} (h : (program pr i).after tr = some (.finish .busBusy d)) :
    HasBusyStart tr := by
  cases i with
  | start =>
    rw [program, progStart] at h
    obtain ⟨v, rest, rfl, hend⟩ := after_startProc_finish h
    rw [orRaise_startResult, after_finish_iff] at hend
    obtain ⟨rfl, hv, -⟩ := hend
    obtain rfl : v = true := by cases v <;> simp [startResult] at hv ⊢
    exact ⟨[], [], rfl⟩
  | wrcmd | cfg1shot | startconv => exact hasBusyStart_of_progWrcmd h
  | rdreg | rdstat | rdtemp => exact hasBusyStart_of_progRdreg h
  | _ =>
    obtain ⟨hr, -⟩ := program_leaves h
    simp [Instr.results] at hr

/-- Where `Start()` samples the clock, the block drives it low (R67), so under `ENV-LOW` the sample is 0. -/
theorem State.envLow.not_hasBusyStart (hl : s.envLow) (ha : s.answers tr = true) : ¬HasBusyStart tr := by
  rintro ⟨front, rest, rfl⟩
  simp only [State.answers, answersAgree_append, Bool.and_eq_true, answersAgree_startTrace] at ha
  obtain ⟨⟨-, hhigh⟩, -⟩ := ha
  rw [hl _ .scl (drivenAfter_append ..)] at hhigh
  contradiction

/-- Settles O32: `BUS_BUSY` needs a clock sample 1 that `ENV-LOW` excludes. -/
theorem busIsNeverBusyUnderEnvLow : Obligations.BusIsNeverBusyUnderEnvLow := by
  intro i s t hl hn hb hbusy
  obtain ⟨tr, r, d, hq, ha, rfl⟩ := exec_completed hn hb
  obtain rfl : r = .busBusy := hbusy
  exact hl.not_hasBusyStart ha (hasBusyStart_of_busBusy hq)

/-- A completed trace of a sequencer command, under its own name or as a pseudo-command, ends with the stop condition (R78, R82). -/
theorem program_finish_stop {pr : Params} {code payload : Byte} {n : Nat} {r : Result} {d : Option Byte}
    (hi : i.expand pr = .wrcmd code payload ∨ i.expand pr = .rdreg code n)
    (h : (program pr i).after tr = some (.finish r d)) : ∃ front, tr = front ++ stopTrace := by
  rw [← program_expand] at h
  rcases hi with hi | hi <;> rw [hi] at h
  · obtain ⟨hm, -⟩ := progWrcmd_finish h
    exact wrcmdPaths_stop hm
  · rcases progRdreg_finish h with ⟨hm, -⟩ | ⟨vs, -, rfl, -⟩
    · exact rdregFailures_stop hm
    · exact ⟨_, rfl⟩

/-- Settles O33: the stop condition releases both lines, and a command that fails writes no byte (R95). -/
theorem sequencerCommandsEndWithAStop : Obligations.SequencerCommandsEndWithAStop := by
  intro i code payload n s t hi hn hb
  obtain ⟨tr, r, d, hq, -, rfl⟩ := exec_completed hn hb
  obtain ⟨front, rfl⟩ := program_finish_stop hi hq
  obtain ⟨-, -, -, -, hfail, -⟩ := program_leaves hq
  refine ⟨⟨front, by simp⟩, fun l => by simp [drivenFrom_append], fun hr => ?_⟩
  obtain ⟨rfl, -⟩ := hfail hr
  simp

/-! ## Where a command hangs (R104) -/

theorem Prog.unfinished_of_phase (h : p.phase = .byteTransfer) : p.unfinished = true := by
  cases p with
  | finish r d => cases h
  | _ => rfl

theorem stallsIn_byteTransfer (h : s.stallsIn q.phase = true) : q.phase = .byteTransfer ∧ s.hangsHere = true := by
  cases hq : q.phase with
  | framing => simp [hq, State.stallsIn] at h
  | byteTransfer => exact ⟨rfl, by simpa [hq, State.stallsIn] using h⟩

/-- A command midway, where what is left of it hangs, hangs in the terms claims use. -/
theorem hung_midway (hq : (program s.params i).after tr = some q) (hp : q.phase = .byteTransfer)
    (hh : (s.midway i tr).hangsHere = true) : hung i s (s.midway i tr) tr :=
  ⟨⟨q, hq, Prog.unfinished_of_phase hp, hp⟩, by simp, by simp, by simp, by simp, by simp, by simp, sameOutside_midway, hh⟩

/-- An instruction after which `BUSY` is 1 is midway through its micro-program, at a point inside a byte transfer. -/
theorem exec_hangs (hn : exec i s = .next t) (hb : t.busy = true) :
    ∃ tr q, (program s.params i).after tr = some q ∧ s.answers tr = true ∧ q.phase = .byteTransfer ∧ t.hangsHere = true ∧
      t = s.midway i tr := by
  obtain ⟨tr, q, hq, ha, ⟨r, d, -, rfl⟩ | ⟨-, hs, rfl⟩⟩ := exec_cases hn
  · simp at hb
  · obtain ⟨hp, hh⟩ := stallsIn_byteTransfer hs
    exact ⟨tr, q, hq, ha, hp, hh, rfl⟩

/-- A command without a byte transfer completes, whatever the environment does. -/
theorem exec_completes_of_no_transfer (hi : i.transfersBytes = false) (hb : s.busy = false) :
    ∃ tr r d, exec i s = .next ((s.midway i tr).complete r d) := by
  cases i with
  | rel l => exact ⟨_, _, _, exec_rel_of_not_busy hb⟩
  | low l => exact ⟨_, _, _, exec_low_of_not_busy hb⟩
  | smp l => exact ⟨_, _, _, exec_smp_of_not_busy hb⟩
  | start =>
    obtain ⟨v, ha⟩ : ∃ v, s.answers (startTrace v) = true := exists_startTrace ..
    exact ⟨_, _, _, exec_start_of_answers hb ha⟩
  | stop => exact ⟨_, _, _, exec_stop_of_not_busy hb⟩
  | mack => exact ⟨_, _, _, exec_mack_of_not_busy hb⟩
  | mnack => exact ⟨_, _, _, exec_mnack_of_not_busy hb⟩
  | _ => cases hi

/-- Settles O35: a command in flight is midway, and one without a byte transfer would have completed. -/
theorem onlyByteTransfersHang : Obligations.OnlyByteTransfersHang := by
  intro i s t hn hb
  constructor
  · by_contra hi
    obtain ⟨hidle, -⟩ := exec_next hn
    obtain ⟨tr, r, d, hc⟩ := exec_completes_of_no_transfer (by simpa using hi) hidle
    cases hc.symm.trans hn
    simp at hb
  · obtain ⟨tr, q, hq, ha, hp, hh, rfl⟩ := exec_hangs hn hb
    exact ⟨tr, hung_midway hq hp hh, ha, by simp⟩

/-! ## Every point of a byte transfer can hang (R104) -/

/-- One micro-operation of a run, where the program does not hang before it. -/
theorem Prog.run_of_after_one {m : MicroOp} (hn : p.after [m] = some next) (ha : s.answers [m] = true)
    (hs : s.stallsIn p.phase = false) : p.run s = next.run (s.perform m) := by
  cases p with
  | release ph l k =>
    obtain ⟨rfl, rfl⟩ : m = .release l ∧ k = next := by simpa [Prog.after] using hn
    exact if_neg (ne_true_of_eq_false hs)
  | pullLow ph l k =>
    obtain ⟨rfl, rfl⟩ : m = .pullLow l ∧ k = next := by simpa [Prog.after] using hn
    exact if_neg (ne_true_of_eq_false hs)
  | sample ph l k =>
    cases m with
    | sample l' v =>
      obtain ⟨rfl, rfl⟩ : l' = l ∧ k v = next := by simpa [Prog.after] using hn
      obtain rfl : s.level l' = v := by simpa [State.answers, answersAgree, State.level] using ha
      exact if_neg (ne_true_of_eq_false hs)
    | _ => simp [Prog.after] at hn
  | finish r d => simp [Prog.after] at hn

/-- A program performs the trace that the answers select, as long as the environment hangs no byte transfer before its end. -/
theorem Prog.run_of_hang_after {n : Nat} (hq : p.after tr = some q) (ha : s.answers tr = true) (hh : s.bus.hang = .after n)
    (hn : s.history.length + tr.length ≤ n) : p.run s = q.run (s.performAll tr) := by
  induction tr generalizing p s with
  | nil =>
    obtain rfl : p = q := by simpa using hq
    rfl
  | cons m tr ih =>
    rw [List.length_cons] at hn
    obtain ⟨next, hone, hrest⟩ := Prog.after_cons_eq_some hq
    have ⟨hm, htr⟩ : s.answers [m] = true ∧ (s.perform m).answers tr = true := by
      rw [← List.singleton_append, State.answers, answersAgree_append, Bool.and_eq_true] at ha
      simpa [State.answers] using ha
    have hgo : s.stallsIn p.phase = false := by
      cases p.phase with
      | framing => rfl
      | byteTransfer =>
        simp only [State.stallsIn, State.hangsHere, Environment.hangsAt, hh, decide_eq_false_iff_not]
        omega
    rw [Prog.run_of_after_one hone hm hgo]
    exact ih hrest htr (by simpa using hh) (by rw [State.perform_history, List.length_append, List.length_singleton]; omega)

theorem Prog.run_of_stalls (hs : s.stallsIn q.phase = true) : q.run s = s := by
  cases q with
  | finish r d => simp [Prog.phase, State.stallsIn] at hs
  | _ => exact if_pos hs

/-- Where the environment hangs every byte transfer from the end of a trace on, and the trace ends inside one, the command performs
the trace and hangs. -/
theorem exec_hangs_after (hb : s.busy = false) (hw : i.wellFormed = true) (hq : (program s.params i).after tr = some q)
    (hp : q.phase = .byteTransfer) (ha : s.answers tr = true) (hh : s.bus.hang = .after (s.history.length + tr.length)) :
    ∃ t, exec i s = .next t ∧ hung i s t tr := by
  have hhere : (s.midway i tr).hangsHere = true := by
    simp [State.midway, State.hangsHere, Environment.hangsAt, hh]
  refine ⟨s.midway i tr, ?_, hung_midway hq hp hhere⟩
  rw [exec_of_not_busy hb hw, Prog.run_of_hang_after (s := s.issue _) hq ha hh (Nat.le_refl _)]
  exact congrArg _ (Prog.run_of_stalls (by rw [hp]; exact hhere))

/-- Before each micro-operation of the trace, the program is inside a byte transfer. -/
def Prog.TransfersAlong : Prog → List MicroOp → Prop
  | _, [] => True
  | p, m :: tr => p.phase = .byteTransfer ∧ ∃ next, p.after [m] = some next ∧ next.TransfersAlong tr

@[simp] theorem Prog.transfersAlong_nil (p : Prog) : p.TransfersAlong [] := trivial

@[simp] theorem transfersAlong_release (l : Line) (k : Prog) (tr : List MicroOp) :
    (Prog.release .byteTransfer l k).TransfersAlong (.release l :: tr) ↔ k.TransfersAlong tr := by
  simp [Prog.TransfersAlong, Prog.phase]

@[simp] theorem transfersAlong_pullLow (l : Line) (k : Prog) (tr : List MicroOp) :
    (Prog.pullLow .byteTransfer l k).TransfersAlong (.pullLow l :: tr) ↔ k.TransfersAlong tr := by
  simp [Prog.TransfersAlong, Prog.phase]

@[simp] theorem transfersAlong_sample (l : Line) (k : Bool → Prog) (v : Bool) (tr : List MicroOp) :
    (Prog.sample .byteTransfer l k).TransfersAlong (.sample l v :: tr) ↔ (k v).TransfersAlong tr := by
  simp [Prog.TransfersAlong, Prog.phase]

/-- What that says of one point of the trace. -/
theorem Prog.TransfersAlong.after_take (h : p.TransfersAlong tr) {k : Nat} (hk : k < tr.length) :
    ∃ q, p.after (tr.take k) = some q ∧ q.phase = .byteTransfer := by
  induction tr generalizing p k with
  | nil => cases hk
  | cons m tr ih =>
    obtain ⟨hp, next, hone, hrest⟩ := h
    cases k with
    | zero => exact ⟨p, by simp, hp⟩
    | succ k =>
      obtain ⟨q, hq, hphase⟩ := ih hrest (Nat.lt_of_succ_lt_succ hk)
      refine ⟨q, ?_, hphase⟩
      rw [List.take_succ_cons, ← List.singleton_append, Prog.after_append, hone]
      exact hq

theorem transfersAlong_sendBits (bits : List Bool) (k : Prog) (tr : List MicroOp) :
    (sendBits bits k).TransfersAlong (bits.flatMap bitTrace ++ tr) ↔ k.TransfersAlong tr := by
  induction bits with
  | nil => rfl
  | cons bit bits ih => cases bit <;> simpa [sendBits, driveBit, clockPulse, bitTrace] using ih

/-- All of `SendByte` is inside its byte transfer (R69; log 3). -/
theorem transfersAlong_sendByteProc (b : Byte) (k : Result → Prog) (ack : Bool) :
    (sendByteProc b k).TransfersAlong (sendTrace b ack) := by
  rw [sendByteProc, sendTrace, transfersAlong_sendBits]
  simp [clockPulseSample]

theorem transfersAlong_receiveBits (bits : List Bool) (acc : Byte) (k : Byte → Prog) :
    (receiveBits bits.length acc k).TransfersAlong (bits.flatMap sampledBitTrace) := by
  induction bits generalizing acc with
  | nil => trivial
  | cons bit bits ih => simpa [receiveBits, clockPulseSample, sampledBitTrace] using ih (shiftIn acc bit)

/-- So is all of `ReceiveByte` (R70; log 3). -/
theorem transfersAlong_receiveByteProc (b : Byte) (k : Byte → Prog) : (receiveByteProc k).TransfersAlong (receiveTrace b) :=
  (transfersAlong_release ..).2 (transfersAlong_receiveBits (bitsMsbFirst b) 0#8 k)

/-- A command that comes to a byte transfer after the trace `a` can hang after any part of that transfer's trace `b`. -/
theorem exec_hangs_in_transfer (hb : s.busy = false) (hw : i.wellFormed = true)
    (hq : (program s.params i).after a = some q) (ht : q.TransfersAlong b) (haa : s.answers a = true)
    (hab : answersAgree s.bus s.resets (s.history ++ a) b = true) {k : Nat} (hk : k < b.length)
    (hh : s.bus.hang = .after (s.history.length + (a.length + k))) :
    ∃ t, exec i s = .next t ∧ hung i s t (a ++ b.take k) := by
  obtain ⟨q', hq', hp⟩ := ht.after_take hk
  have htake : answersAgree s.bus s.resets (s.history ++ a) (b.take k) = true := by
    rw [← List.take_append_drop k b, answersAgree_append, Bool.and_eq_true] at hab
    exact hab.1
  refine exec_hangs_after hb hw (q := q') ?_ hp ?_ ?_
  · rw [Prog.after_append, hq]
    exact hq'
  · rw [State.answers, answersAgree_append, Bool.and_eq_true]
    exact ⟨haa, htake⟩
  · rw [hh, List.length_append, List.length_take_of_le hk.le]

/-- The same of a command that is a byte transfer from its first micro-operation on. -/
theorem exec_hangs_in_only_transfer (hb : s.busy = false) (hw : i.wellFormed = true)
    (ht : (program s.params i).TransfersAlong b) (hab : s.answers b = true) {k : Nat} (hk : k < b.length)
    (hh : s.bus.hang = .after (s.history.length + k)) : ∃ t, exec i s = .next t ∧ hung i s t (b.take k) := by
  simpa using exec_hangs_in_transfer (a := []) hb hw (Prog.after_nil _) ht rfl (by rwa [List.append_nil]) hk (by simpa using hh)

theorem after_startProc_self (k : Result → Prog) (v : Bool) : (startProc k).after (startTrace v) = some (k (startResult v)) := by
  simpa using after_startProc k v []

theorem after_sendByteProc_self (x : Byte) (k : Result → Prog) (ack : Bool) :
    (sendByteProc x k).after (sendTrace x ack) = some (k (ackResult ack)) := by
  simpa using after_sendByteProc x k ack []

/-- The same where the program begins with the address byte after `Start()`: every sequencer command and pseudo-command. -/
theorem exec_hangs_in_first_byte {f : Result → Prog} {k : Nat} (hb : s.busy = false) (hw : i.wellFormed = true)
    (hi : program s.params i = startProc fun r => orAbort r .busBusy (sendByteProc (addrW s.params) f)) (hk : k < 28)
    (ha : s.answers (startTrace false) = true) (hh : s.bus.hang = .after (s.history.length + (5 + k))) :
    ∃ ack t, exec i s = .next t ∧ hung i s t (startTrace false ++ (sendTrace (addrW s.params) ack).take k) := by
  obtain ⟨ack, hack⟩ := exists_sendTrace s.bus s.resets (s.history ++ startTrace false) (addrW s.params)
  have hq : (program s.params i).after (startTrace false) = some (sendByteProc (addrW s.params) f) := by
    rw [hi, after_startProc_self, orAbort_startResult_false]
  exact ⟨ack, exec_hangs_in_transfer hb hw hq (transfersAlong_sendByteProc ..) ha hack hk hh⟩

/-- Every sequencer command and pseudo-command begins with `Start()` and the address byte (R78, R82). -/
theorem sequencer_begins_with_the_address (pr : Params)
    (hi : i ∈ [.cfg1shot, .startconv, .rdstat, .rdtemp] ∨ (∃ code payload, i = .wrcmd code payload) ∨
      (∃ code n, i = .rdreg code n ∧ (n = 1 ∨ n = 2))) :
    i.wellFormed = true ∧ ∃ f, program pr i = startProc fun r => orAbort r .busBusy (sendByteProc (addrW pr) f) := by
  simp only [List.mem_cons, List.not_mem_nil, or_false] at hi
  obtain (rfl | rfl | rfl | rfl) | ⟨_, _, rfl⟩ | ⟨_, _, rfl, hn⟩ := hi
  case inr.inr => exact ⟨by simpa [Instr.wellFormed] using hn, _, rfl⟩
  all_goals exact ⟨rfl, _, rfl⟩

/-- Addressed, `RDREG` comes to its first received byte, if it is to receive one (R82). -/
theorem after_progRdreg_addressed (pr : Params) (code : Byte) {n : Nat} (hn : 0 < n) :
    ∃ f, (progRdreg pr code n).after (rdregAddressed pr code) = some (receiveByteProc f) := by
  cases n with
  | zero => contradiction
  | succ n =>
    simp only [progRdreg, rdregAddressed, receiveBytes, List.append_assoc, after_startProc, after_sendByteProc,
      orAbort_startResult_false, orAbort_ackResult_false, after_sendByteProc_self]
    exact ⟨_, rfl⟩

/-- Settles O34: the general clause, then the four special ones, where the environment's answers give the samples of the transfer. -/
theorem byteTransfersCanHangAnywhere : Obligations.ByteTransfersCanHangAnywhere := by
  intro s hb
  refine ⟨fun i tr q hw hq _ hp ha hh => exec_hangs_after hb hw hq hp ha hh, fun byte k hk hh => ?_, fun k hk hh => ?_,
    fun i k hi hk ha hh => ?_, fun code n k hn hk ha hh => ?_⟩
  · obtain ⟨ack, hack⟩ := exists_sendTrace s.bus s.resets s.history byte
    have ht : (program s.params (.sendb byte)).TransfersAlong (sendTrace byte ack) :=
      transfersAlong_sendByteProc byte (fun r => orRaise r finishOk) ack
    exact ⟨ack, exec_hangs_in_only_transfer hb rfl ht hack hk hh⟩
  · obtain ⟨v, hv⟩ := exists_receiveTrace s.bus s.resets s.history
    have ht : (program s.params .recvb).TransfersAlong (receiveTrace v) :=
      transfersAlong_receiveByteProc v fun x => .finish .ok (some x)
    exact ⟨v, exec_hangs_in_only_transfer hb rfl ht hv hk hh⟩
  · obtain ⟨hw, f, hf⟩ := sequencer_begins_with_the_address s.params hi
    exact exec_hangs_in_first_byte hb hw hf hk ha hh
  · obtain ⟨v, hv⟩ := exists_receiveTrace s.bus s.resets (s.history ++ rdregAddressed s.params code)
    obtain ⟨f, hf⟩ := after_progRdreg_addressed s.params code (n := n) (by omega)
    exact ⟨v, exec_hangs_in_transfer (i := .rdreg code n) hb (by simpa [Instr.wellFormed] using hn) hf
      (transfersAlong_receiveByteProc ..) ha hv hk hh⟩

/-! ## A hang lasts until reset (R104, R106) -/

theorem Prog.stepOne_of_stalls (hs : s.stallsIn q.phase = true) : q.stepOne s = s := by
  cases q with
  | finish r d => simp [Prog.phase, State.stallsIn] at hs
  | _ => exact if_pos hs

/-- A tick leaves a command that hangs where it is. -/
theorem tickCommand_of_hang (hn : exec i s = .next t) (hb : t.busy = true) : tickCommand t = .next t := by
  obtain ⟨tr, q, hq, -, hp, hh, rfl⟩ := exec_hangs hn hb
  rw [tickCommand_of_pending midway_ifc (pending_midway.trans hq), Prog.stepOne_of_stalls (by rw [hp]; exact hh)]

theorem tickMany_of_fixed (ht : tickCommand t = .next t) (n : Nat) : tickMany n t = .next t := by
  induction n with
  | zero => rfl
  | succ n ih => simpa [tickMany, ht] using ih

/-- With a command in flight that a tick leaves where it is, every host action but the assertion of reset is refused or changes at
most what the host has read and the level of the reset input. -/
theorem hostStep_of_fixed {x : HostAction} (hb : t.busy = true) (ht : tickCommand t = .next t) (hx : x ≠ .assertReset)
    (hn : hostStep x t = .next u) :
    ∃ asserted reads data, u = { t with resetAsserted := asserted, pinReads := reads, hostData := data } := by
  cases x with
  | call w =>
    cases hr : t.resetAsserted with
    | true =>
      cases (callCmd_of_asserted hr w).symm.trans hn
      exact ⟨_, _, _, rfl⟩
    | false => cases (callCmd_of_busy hr hb w).symm.trans hn
  | write r w =>
    cases r with
    | cmd =>
      cases hr : t.resetAsserted with
      | true =>
        cases (writeCmd_of_asserted hr w).symm.trans hn
        exact ⟨_, _, _, rfl⟩
      | false => cases (writeCmd_of_busy hr hb w).symm.trans hn
    | _ =>
      cases hn
      exact ⟨_, _, _, rfl⟩
  | read r =>
    cases r with
    | cmd => cases hn
    | rdata =>
      obtain hd | ⟨v, hd⟩ := Option.eq_none_or_eq_some t.rdata
      · cases (readReg_rdata_of_none hd).symm.trans hn
      · cases (readReg_rdata_of_some hd).symm.trans hn
        exact ⟨_, _, _, rfl⟩
    | _ =>
      cases hn
      exact ⟨_, _, _, rfl⟩
  | tick =>
    cases hr : t.resetAsserted with
    | true =>
      cases (tickBlock_of_asserted hr).symm.trans hn
      exact ⟨_, _, _, rfl⟩
    | false =>
      cases ((tickBlock_of_released hr).trans ht).symm.trans hn
      exact ⟨_, _, _, rfl⟩
  | assertReset => contradiction
  | releaseReset =>
    cases hn
    exact ⟨_, _, _, rfl⟩

/-- Settles O36: a tick leaves the command where it is, and the hang depends on nothing that the host's other actions change. -/
theorem onlyResetEndsAHang : Obligations.OnlyResetEndsAHang := by
  intro i s t hn hb
  have ht := tickCommand_of_hang hn hb
  obtain ⟨-, -, -, -, -, hh, -⟩ := exec_hangs hn hb
  refine ⟨tickMany_of_fixed ht, fun x u hx hu => ?_, assertReset t, rfl, by simp⟩
  obtain ⟨_, _, _, rfl⟩ := hostStep_of_fixed hb ht hx hu
  exact ⟨hb, rfl, rfl, rfl, hh, fun l => rfl⟩

end Sys2Proof.Machine
end

section
/-! PROOFS. The reset and hazard statements (70_reset_and_hazards.md): reset and what holds it, how many micro-operations a
command and each of the sequencer's paths has, and the reference host's procedure. -/

namespace Sys2Proof.Machine

variable {s t u : State} {i : Instr} {p : Params} {tr : List MicroOp} {c : SuccessfulCommand}

/-! ## Reset (R105, R106) -/

/-- In the reset state `STATUS` reads 0x00 (R26). -/
theorem status_of_inResetState (h : s.inResetState) : s.status = 0x00#8 := by
  obtain ⟨-, hb, he, hs, -, -, -⟩ := h
  rw [State.status, hb, he, hs]
  rfl

/-- A read changes at most what the host has read, and how often it has read `LINES` (R17, R30). -/
theorem readReg_next {r : HostReg} (hn : readReg r s = .next u) :
    ∃ reads data, u = { s with pinReads := reads, hostData := data } := by
  cases r with
  | cmd => cases hn
  | rdata =>
    obtain hd | ⟨b, hd⟩ := Option.eq_none_or_eq_some s.rdata
    · cases (readReg_rdata_of_none hd).symm.trans hn
    · cases (readReg_rdata_of_some hd).symm.trans hn
      exact ⟨_, _, rfl⟩
  | _ =>
    cases hn
    exact ⟨_, _, rfl⟩

/-- A reset input that is asserted stays so under every host action but its release. -/
theorem hostStep_keeps_resetAsserted {a : HostAction} (hr : s.resetAsserted = true) (ha : a ≠ .releaseReset)
    (hn : hostStep a s = .next u) : u.resetAsserted = true := by
  cases a with
  | call w =>
    cases (callCmd_of_asserted hr w).symm.trans hn
    exact hr
  | write r w =>
    cases r with
    | cmd =>
      cases (writeCmd_of_asserted hr w).symm.trans hn
      exact hr
    | _ =>
      cases hn
      exact hr
  | read r =>
    obtain ⟨_, _, rfl⟩ := readReg_next hn
    exact hr
  | tick =>
    cases (tickBlock_of_asserted hr).symm.trans hn
    exact hr
  | assertReset =>
    cases hn
    rfl
  | releaseReset => contradiction

/-- In a good state with reset asserted, whatever the host does but release it, the block is in the reset state (R105). -/
theorem hostStep_under_reset {a : HostAction} (h : s.Inv) (hr : s.resetAsserted = true) (ha : a ≠ .releaseReset)
    (hn : hostStep a s = .next u) : u.inResetState ∧ u.status = 0x00#8 ∧ u.resetAsserted = true := by
  have hu := hostStep_keeps_resetAsserted hr ha hn
  have hreset := (hostStep_keeps_inv h hn).reset_holds hu
  exact ⟨hreset, status_of_inResetState hreset, hu⟩

/-- Settles O46: asserting reset leads to the reset state, which is a good one; its release changes the input's level only. -/
theorem resetFromEveryState : Obligations.ResetFromEveryState := by
  intro s
  have hreset := assertReset_inResetState s
  have hr := assertReset_resetAsserted s
  exact ⟨assertReset s, rfl, hreset, status_of_inResetState hreset, hr, rfl, rfl,
    fun _ _ ha hn => hostStep_under_reset (inv_of_inResetState hreset) hr ha hn,
    fun w => ⟨callCmd_of_asserted hr w, writeCmd_of_asserted hr w⟩, tickBlock_of_asserted hr,
    releaseReset (assertReset s), rfl, hreset, status_of_inResetState hreset, rfl⟩

/-! ## Counts (R123, R124) -/

/-- A command that has come to its end has performed something: every micro-program begins with a micro-operation. -/
theorem length_pos_of_finish {r : Result} {d : Option Byte} (h : (program p i).after tr = some (.finish r d)) :
    0 < tr.length := by
  have hu := program_unfinished p i
  cases tr with
  | nil =>
    rw [Prog.after_nil, Option.some.injEq] at h
    rw [h] at hu
    cases hu
  | cons m tr => simp

/-- Settles O28: where nothing hangs a command comes to the end of its micro-program, and no trace of it is longer than 153. -/
theorem everyCommandCompletesWithinItsBound : Obligations.EveryCommandCompletesWithinItsBound := by
  intro i s hw hb hn
  obtain ⟨tr, r, d, hend, ha, hexec⟩ := exec_completes hb hw hn
  obtain ⟨hr, -⟩ := program_leaves hend
  have hlen := Prog.length_add_maxOps_le hend
  have hmax := maxOps_program_le s.params hw
  exact ⟨tr, r, _, hexec, completed_midway .., ha, length_pos_of_finish hend, by omega, hr⟩

/-! The segments' delays, micro-operations and samples (R122); those of a byte sent or received are `delayCount_sendTrace` and
its neighbours. -/

@[simp] theorem counts_startTrace (v : Bool) :
    delayCount (startTrace v) = 4 ∧ (startTrace v).length = 5 ∧ sampleCount (startTrace v) = 1 := ⟨rfl, rfl, rfl⟩
@[simp] theorem counts_stopTrace : delayCount stopTrace = 3 ∧ stopTrace.length = 3 ∧ sampleCount stopTrace = 0 :=
  ⟨rfl, rfl, rfl⟩
@[simp] theorem counts_ackTrace : delayCount ackTrace = 3 ∧ ackTrace.length = 3 ∧ sampleCount ackTrace = 0 := ⟨rfl, rfl, rfl⟩
@[simp] theorem counts_nackTrace : delayCount nackTrace = 3 ∧ nackTrace.length = 3 ∧ sampleCount nackTrace = 0 :=
  ⟨rfl, rfl, rfl⟩

/-- The rows of `WRCMD` (R123). -/
theorem counts_wrcmdPaths (p : Params) (code payload : Byte) :
    (wrcmdPaths p code payload).map (fun x => (delayCount x.1, x.1.length, sampleCount x.1, x.2)) =
      [(7, 8, 1, .busBusy), (34, 36, 2, .addrNack), (61, 64, 3, .noAck)] ++
      (if code = p.cmdConfig then [(88, 92, 4, .noAck), (88, 92, 4, .ok)] else [(61, 64, 3, .ok)]) := by
  by_cases hc : code = p.cmdConfig <;> simp [wrcmdPaths, hc, delayCount_append, sampleCount_append]

/-- The rows on which `RDREG` fails (R123). -/
theorem counts_rdregFailures (p : Params) (code : Byte) :
    (rdregFailures p code).map (fun x => (delayCount x.1, x.1.length, sampleCount x.1, x.2)) =
      [(7, 8, 1, .busBusy), (34, 36, 2, .addrNack), (61, 64, 3, .noAck), (65, 69, 4, .busBusy), (92, 97, 5, .addrNack)] := by
  simp [rdregFailures, delayCount_append, sampleCount_append]

/-- Up to the bytes it receives a successful read counts alike (R123). -/
@[simp] theorem counts_rdregAddressed (p : Params) (code : Byte) :
    delayCount (rdregAddressed p code) = 89 ∧ (rdregAddressed p code).length = 94 ∧
      sampleCount (rdregAddressed p code) = 5 := by
  simp [rdregAddressed, delayCount_append, sampleCount_append]

/-- A byte received, with its acknowledgment step, counts like every other (R122). -/
theorem counts_receivedTrace (vs : List Byte) :
    delayCount (receivedTrace vs) = 20 * vs.length ∧ (receivedTrace vs).length = 28 * vs.length ∧
      sampleCount (receivedTrace vs) = 8 * vs.length := by
  induction vs with
  | nil => exact ⟨rfl, rfl, rfl⟩
  | cons v vs ih =>
    obtain ⟨hd, hl, hs⟩ := ih
    cases vs with
    | nil => simp [receivedTrace, delayCount_append, sampleCount_append]
    | cons w vs =>
      simp [receivedTrace, delayCount_append, sampleCount_append, hd, hl, hs]
      omega

/-- A successful read (R123). -/
theorem counts_rdregTrace (p : Params) (code : Byte) (vs : List Byte) :
    (delayCount (rdregTrace p code vs), (rdregTrace p code vs).length, sampleCount (rdregTrace p code vs)) =
      (92 + 20 * vs.length, 97 + 28 * vs.length, 5 + 8 * vs.length) := by
  obtain ⟨hd, hl, hs⟩ := counts_receivedTrace vs
  simp [rdregTrace, delayCount_append, sampleCount_append, hd, hl, hs]
  omega

/-- Every failing path of the table is a whole trace of `RDREG`, whatever the count, and ends with the path's result (R83). -/
theorem after_progRdreg_of_mem {code : Byte} {path : Path} (h : path ∈ rdregFailures p code) (n : Nat) :
    (progRdreg p code n).after path.1 = some (.finish path.2 none) := by
  simp only [rdregFailures, List.mem_cons, List.not_mem_nil, or_false] at h
  obtain rfl | rfl | rfl | rfl | rfl := h <;> simp [progRdreg]

/-- Settles O27: the counts of a path are the sums of its segments', and each path ends its micro-program. -/
theorem sequencerPathCounts : Obligations.SequencerPathCounts := by
  intro p code payload v w
  exact ⟨counts_wrcmdPaths p code payload, fun _ hx => after_progWrcmd_of_mem hx, counts_rdregFailures p code,
    fun _ hx n => after_progRdreg_of_mem hx n, counts_rdregTrace p code [v], after_progRdreg p code [v],
    counts_rdregTrace p code [v, w], after_progRdreg p code [v, w]⟩

/-! ## The named commands, where they succeed (R85 to R88) -/

/-- Configure-one-shot, every byte acknowledged (R85). -/
def configured (p : Params) : SuccessfulCommand :=
  ⟨.cfg1shot, wrcmdAddressed p p.cmdConfig ++ sendTrace p.oneShotPayload false ++ stopTrace, none⟩
/-- Start-conversion, every byte acknowledged (R86). -/
def conversionStarted (p : Params) : SuccessfulCommand := ⟨.startconv, wrcmdAddressed p p.cmdStartConv ++ stopTrace, none⟩
/-- A poll of the status that reads the byte `b` (R87). -/
def statusRead (p : Params) (b : Byte) : SuccessfulCommand := ⟨.rdstat, rdregTrace p p.cmdConfig [b], some b⟩
/-- A temperature read that receives the bytes `v` and `w`; the second is clocked in and dropped (R84, R88). -/
def temperatureRead (p : Params) (v w : Byte) : SuccessfulCommand := ⟨.rdtemp, rdregTrace p p.cmdReadTemp [v, w], some v⟩

theorem configured_runs (p : Params) : (configured p).Runs p := ⟨rfl, after_progWrcmd_config p p.oneShotPayload⟩
theorem conversionStarted_runs (p : Params) : (conversionStarted p).Runs p :=
  ⟨rfl, after_progWrcmd_other p (cmdStartConv_ne_cmdConfig p) 0#8⟩
theorem statusRead_runs (p : Params) (b : Byte) : (statusRead p b).Runs p := ⟨rfl, after_progRdreg p p.cmdConfig [b]⟩
theorem temperatureRead_runs (p : Params) (v w : Byte) : (temperatureRead p v w).Runs p :=
  ⟨rfl, after_progRdreg p p.cmdReadTemp [v, w]⟩

/-- A command that succeeds on the answers to its trace ends as `afterSuccess` says. -/
theorem exec_of_successful (hc : c.Runs s.params) (hb : s.busy = false) (hn : s.envNoHang) (ha : s.answers c.trace = true) :
    exec c.instr s = .next (s.afterSuccess c) := by
  obtain ⟨hw, hend⟩ := hc
  exact exec_of_after hb hw hn hend ha

/-- And where more is to come, the bus is as good for that, and its answers too. -/
theorem exec_of_successful_then (hc : c.Runs s.params) (hb : s.busy = false) (hn : s.envNoHang)
    (ha : s.answers (c.trace ++ tr) = true) :
    exec c.instr s = .next (s.afterSuccess c) ∧ (s.afterSuccess c).envNoHang ∧ (s.afterSuccess c).answers tr = true := by
  obtain ⟨hfirst, hrest⟩ := answers_append_afterSuccess ha
  exact ⟨exec_of_successful hc hb hn hfirst, by simpa [State.envNoHang] using hn, hrest⟩

/-- The parameters, and so a command's micro-program, are the same after another command. -/
theorem SuccessfulCommand.Runs.afterSuccess {c' : SuccessfulCommand} (h : c'.Runs s.params) :
    c'.Runs (s.afterSuccess c).params := by rwa [afterSuccess_params]

@[simp] theorem afterSuccess_rdata : (s.afterSuccess c).rdata = c.byte.or s.rdata := by simp [State.afterSuccess]

theorem completed_afterSuccess (s : State) (c : SuccessfulCommand) : completed s (s.afterSuccess c) c.trace .ok :=
  completed_midway ..

/-! ## Boot (R107) -/

/-- Once configure-one-shot has succeeded, boot starts a conversion. -/
theorem boot_of_configured (hx : exec .cfg1shot s = .next u) (hb : u.busy = false) (he : u.err = .ok) :
    boot s = exec .startconv u := by
  simp [boot, hx, hb, he]

/-- Configure-one-shot and then start-conversion, both successful, take the session from `Idle` to `Converting` (R89). -/
theorem Session.converting_of_boot (hub : u.busy = false) (hue : u.err = .ok) (htb : t.busy = false) (hte : t.err = .ok) :
    (Session.idle.after .cfg1shot u).bind (fun q => q.after .startconv t) = some .converting := by
  rw [Session.after_of_ok hub hue, sessionEvent_cfg1shot]
  calc Session.readyForConversion.after .startconv t
      = (sessionEvent .startconv t).bind Session.readyForConversion.next := Session.after_of_ok htb hte ..
    _ = some .converting := by rw [sessionEvent_startconv]; rfl

/-- Settles O58: both commands succeed, one after the other. -/
theorem bootStartsAConversion : Obligations.BootStartsAConversion := by
  intro s hb hn ha
  obtain ⟨hcfg, hn', hconv⟩ := exec_of_successful_then (configured_runs s.params) hb hn ha
  have hstart := exec_of_successful (conversionStarted_runs s.params).afterSuccess rfl hn' hconv
  exact ⟨_, _, hcfg, (boot_of_configured hcfg rfl rfl).trans hstart,
    completed_trans (completed_afterSuccess ..) (completed_afterSuccess ..), Session.converting_of_boot rfl rfl rfl rfl⟩

/-! ## A poll (R108), branch by branch -/

section
variable {v : State} (hx : exec .rdstat s = .next u)
include hx

theorem pollAndUpdate_of_failed_status (he : u.err ≠ .ok) : pollAndUpdate s = .next (u, none) := by
  simp [pollAndUpdate, thenPoll, hx, he]

variable (hb : u.busy = false) (he : u.err = .ok)
include hb he

theorem pollAndUpdate_of_not_done (hd : u.rdata.any doneFlag = false) : pollAndUpdate s = .next (u, none) := by
  simp [pollAndUpdate, thenPoll, hx, hb, he, hd]

variable (hd : u.rdata.any doneFlag = true) (hy : exec .rdtemp u = .next v)
include hd hy

theorem pollAndUpdate_of_failed_temperature (hv : v.err ≠ .ok) : pollAndUpdate s = .next (v, none) := by
  simp [pollAndUpdate, thenPoll, hx, hb, he, hd, hy, hv]

theorem pollAndUpdate_of_temperature (hvb : v.busy = false) (hv : v.err = .ok) (hz : exec .startconv v = .next t) :
    pollAndUpdate s = .next (t, v.rdata) := by
  simp [pollAndUpdate, thenPoll, hx, hb, he, hd, hy, hvb, hv, hz]

end

/-- A read that fails along a row of its table writes no byte (R83). -/
theorem exec_of_rdregFailure {code : Byte} {n : Nat} {path : Path} (hb : s.busy = false) (hw : i.wellFormed = true)
    (hn : s.envNoHang) (hi : program s.params i = progRdreg s.params code n) (hm : path ∈ rdregFailures s.params code)
    (ha : s.answers path.1 = true) :
    ∃ t, exec i s = .next t ∧ t.err ≠ .ok ∧ t.rdata = s.rdata ∧ completed s t path.1 path.2 := by
  have hend : (program s.params i).after path.1 = some (.finish path.2 none) := hi ▸ after_progRdreg_of_mem hm n
  exact ⟨_, exec_of_after hb hw hn hend ha, rdregFailures_ne_ok hm, by simp, completed_midway ..⟩

/-- Settles O59: the commands of the poll succeed one after the other, up to the branch that ends it. -/
theorem pollReadsTheTemperatureOnlyWhenDone : Obligations.PollReadsTheTemperatureOnlyWhenDone := by
  intro s b v w hb hn
  have hstatus := statusRead_runs s.params b
  refine ⟨fun hd ha => ?_, fun hd ha => ?_, fun path hm ha => ?_, fun hd path hm ha => ?_⟩
  · have hx := exec_of_successful hstatus hb hn ha
    exact ⟨_, pollAndUpdate_of_not_done hx rfl rfl hd, completed_afterSuccess ..⟩
  · rw [List.append_assoc] at ha
    obtain ⟨hx, hn₁, ha₁⟩ := exec_of_successful_then hstatus hb hn ha
    obtain ⟨hy, hn₂, ha₂⟩ := exec_of_successful_then (temperatureRead_runs s.params v w).afterSuccess rfl hn₁ ha₁
    have hz := exec_of_successful (conversionStarted_runs s.params).afterSuccess.afterSuccess rfl hn₂ ha₂
    have hdone := completed_trans (completed_afterSuccess s (statusRead s.params b))
      (completed_afterSuccess _ (temperatureRead s.params v w))
    exact ⟨_, pollAndUpdate_of_temperature hx rfl rfl hd hy rfl rfl hz, by simp [conversionStarted, temperatureRead],
      completed_trans hdone (completed_afterSuccess ..)⟩
  · obtain ⟨t, hx, he, hrdata, hdone⟩ := exec_of_rdregFailure (i := .rdstat) hb rfl hn rfl hm ha
    exact ⟨t, pollAndUpdate_of_failed_status hx he, hrdata, hdone⟩
  · obtain ⟨hx, hn₁, ha₁⟩ := exec_of_successful_then hstatus hb hn ha
    rw [← afterSuccess_params (c := statusRead s.params b)] at hm
    obtain ⟨t, hy, he, hrdata, hdone⟩ := exec_of_rdregFailure (i := .rdtemp) rfl rfl hn₁ rfl hm ha₁
    exact ⟨t, pollAndUpdate_of_failed_temperature hx rfl rfl hd hy he, hrdata,
      completed_trans (completed_afterSuccess ..) hdone⟩

end Sys2Proof.Machine
end
